-- ==== Sys2Proof/Word.lean ====
section
/-! DEFINITION. The word types of the flashlab codec block: spec/00_scope.md rules R9 to R11. -/

namespace Sys2Proof

/-- A byte: 8 bits, bit 0 the least significant (R10, R11). Characters are 8-bit codes too (R9). -/
abbrev Byte := BitVec 8

/-- A command word: 32 bits, bit 31 the most significant (R11, R60). -/
abbrev CommandWord := BitVec 32

/-- An entry of the index list `IDX`: 16 bits (R9, R25). -/
abbrev IndexWord := BitVec 16

end Sys2Proof
end

