-- ==== Sys2Proof/Config.lean ====
section
/-! DEFINITION. What is fixed for one instance of the block: the constants of R9 and the three open
parameters of R8 (`ALPHABET`, `CATALOG`, `CAT_LOAD`) as plain data. The parameters are held in the
machine's state and never written, so that a statement about every state is one about every choice of
them. No free value occurs (R19). -/

namespace Sys2Proof

namespace Config

/-- `DASH`, the group separator (R9). -/
def dash : Byte := 0x2D
/-- `SPACE`, the token separator of the bit display (R9). -/
def space : Byte := 0x20
/-- The bit-display character of a clear bit, also the digit `0` (R9). -/
def charZero : Byte := 0x30
/-- The bit-display character of a set bit (R9). -/
def charOne : Byte := 0x31
/-- Capacity of `STR`, and the longest option name (R8, R9, R24). -/
def strCapacity : Nat := 232
/-- The largest `N_CAT` (R8). -/
def maxCatalog : Nat := 65535

end Config

/-- The Symbol Table `SYM`: 64 characters, the index being the symbol's value (R26). -/
abbrev Alphabet := Vector Byte 64

/-- One entry of the option catalog (R27): a name and three 32-bit two's-complement integers, stored as
given and validated only at use. -/
structure Descriptor where
  name       : List Byte
  byteOffset : BitVec 32
  bitOffset  : BitVec 32
  bitSize    : BitVec 32
  deriving DecidableEq, Repr

/-- The option catalog `CAT` in insertion order (R27). -/
abbrev Catalog := List Descriptor

/-- `CAT_LOAD`: the outcome of loading the catalog, sampled by reset (R8). -/
inductive CatLoad where
  | ok
  | unavailable
  | malformed
  deriving DecidableEq, Repr

/-- The parameters of one instance (R8). -/
structure Params where
  alphabet : Alphabet
  catalog  : Catalog
  catLoad  : CatLoad
  deriving DecidableEq, Repr

namespace Config

/-- Symbols 0 to 9: the digits (R26). -/
def digitSymbols : List Byte := [0x30, 0x31, 0x32, 0x33, 0x34, 0x35, 0x36, 0x37, 0x38, 0x39]

/-- Symbols 10 to 33 of the fixture alphabet: upper case without `I` and `O`. -/
def fixtureUpper : List Byte :=
  [0x41, 0x42, 0x43, 0x44, 0x45, 0x46, 0x47, 0x48, 0x4A, 0x4B, 0x4C, 0x4D,
   0x4E, 0x50, 0x51, 0x52, 0x53, 0x54, 0x55, 0x56, 0x57, 0x58, 0x59, 0x5A]

/-- Symbols 34 to 57 of the fixture alphabet: lower case without `l` and `o`. -/
def fixtureLower : List Byte :=
  [0x61, 0x62, 0x63, 0x64, 0x65, 0x66, 0x67, 0x68, 0x69, 0x6A, 0x6B, 0x6D,
   0x6E, 0x70, 0x71, 0x72, 0x73, 0x74, 0x75, 0x76, 0x77, 0x78, 0x79, 0x7A]

/-- Symbols 58 to 63 of the fixture alphabet. -/
def fixturePunctuation : List Byte := [0x21, 0x23, 0x24, 0x25, 0x26, 0x2A]

/-- `TA64`, the fixture alphabet of spec/95_test_vectors.md section 0. It is not the flashlab alphabet. -/
def fixtureAlphabet : Alphabet :=
  ⟨⟨digitSymbols ++ fixtureUpper ++ fixtureLower ++ fixturePunctuation⟩, by decide⟩

/-- DESIGN CHOICE (log 2, unsafe): the parameters of the one state `State.reset`. The spec leaves them
OPEN; claims are made for every `Params`, not for these. -/
def resetParams : Params := { alphabet := fixtureAlphabet, catalog := [], catLoad := .ok }

end Config

end Sys2Proof
end

