-- ==== Sys2Proof/Syntax.lean ====
section
/-! DEFINITION. The commands of the block (spec/30_encoding.md R63, one constructor per row of
spec/opcode_table.json) and the lines of a host's program (R73, R75). -/

namespace Sys2Proof

/-- A command with its operands as rule R61 assembles them: mathematical integers for format R, a
character code for VALOF, an unsigned integer for CHROF; format Z has none. -/
inductive Instr where
  /-- VALOF ch: `value_of(ch)` (R92). -/
  | valof (ch : Byte)
  /-- CHROF v: `char_of(v)` (R93). -/
  | chrof (v : Nat)
  /-- CLR: construct-default (R100). -/
  | clr
  /-- DEC: decode the code string in `STR` (R102). -/
  | dec
  /-- ENC: encode the payload into `STR` (R107). -/
  | enc
  /-- CSUM: the check digit (R120). -/
  | csum
  /-- SETB: `set_bits` (R131). -/
  | setb (byteOffset bitOffset bitSize : Int)
  /-- CLRB: `unset_bits` (R132). -/
  | clrb (byteOffset bitOffset bitSize : Int)
  /-- CHKB: `check_bits` (R133). -/
  | chkb (byteOffset bitOffset bitSize : Int)
  /-- ADDO: `add_option(STR)` (R152). -/
  | addo
  /-- REMO: `remove_option(STR)` (R153). -/
  | remo
  /-- ENOPT: `enabled_options()` into `IDX` (R156). -/
  | enopt
  /-- AVOPT: `available_options()` into `IDX` (R158). -/
  | avopt
  /-- BITS: the bit display into `STR` (R170). -/
  | bits
  deriving DecidableEq, Repr

/-- One line of a host's program: a host move (R73) or a command word, legal or not (R60, R64). -/
inductive Line where
  /-- `.reset` (R210). -/
  | reset
  /-- `.str "text"`: sets `SLEN` and `STR[0..SLEN-1]` (R73). -/
  | str (text : List Byte)
  /-- a command word presented at the command port. -/
  | cmd (w : CommandWord)
  deriving DecidableEq, Repr

end Sys2Proof
end

