-- ==== Sys2Proof/WellFormed.lean ====
section
/-! DEFINITION. The checks: which operands a command can carry (R61, R62), which strings the host can
write (R24) and which parameters are legal (R8). -/

namespace Sys2Proof

/-- An integer that an 8-bit two's-complement field can carry (R61, R62). -/
def fitsSigned8 (n : Int) : Bool := -128 ≤ n && n ≤ 127

/-- A command whose operands its encoding can carry (R61, R62). -/
def Instr.wf : Instr → Bool
  | .valof _ => true
  | .chrof v => v ≤ 255
  | .clr => true
  | .dec => true
  | .enc => true
  | .csum => true
  | .setb bo bi bs => fitsSigned8 bo && fitsSigned8 bi && fitsSigned8 bs
  | .clrb bo bi bs => fitsSigned8 bo && fitsSigned8 bi && fitsSigned8 bs
  | .chkb bo bi bs => fitsSigned8 bo && fitsSigned8 bi && fitsSigned8 bs
  | .addo => true
  | .remo => true
  | .enopt => true
  | .avopt => true
  | .bits => true

/-- A line the host may present: a string written by `.str` has length 0 to 232 (R24). -/
def Line.wf : Line → Bool
  | .reset => true
  | .str text => text.length ≤ Config.strCapacity
  | .cmd _ => true

/-- The constraints on `ALPHABET` (R8, R26): no duplicates, the digits first, every symbol a printable
code in 0x21..0x7E other than `DASH`. -/
abbrev Alphabet.WF (sym : Alphabet) : Prop :=
  sym.toList.Nodup ∧
  sym.toList.take 10 = Config.digitSymbols ∧
  ∀ ch ∈ sym.toList, 0x21 ≤ ch.toNat ∧ ch.toNat ≤ 0x7E ∧ ch ≠ Config.dash

/-- The constraints on `CATALOG` (R8): at most 65535 entries, names of length 0 to 232, pairwise distinct.
The coordinates are 32-bit integers by their type and are not validated here (R27). -/
abbrev Catalog.WF (cat : Catalog) : Prop :=
  cat.length ≤ Config.maxCatalog ∧
  (cat.map Descriptor.name).Nodup ∧
  ∀ d ∈ cat, d.name.length ≤ Config.strCapacity

/-- Legal parameters (R8). -/
abbrev Params.WF (p : Params) : Prop := Alphabet.WF p.alphabet ∧ Catalog.WF p.catalog

end Sys2Proof
end

