-- ==== Sys2Proof/Decode.lean ====
section
/-! DEFINITION. The command word (spec/30_encoding.md R60 to R64): its fields, the opcode map, the decoder
(total: every 32-bit word is one command or is rejected by name) and the encoder. -/

namespace Sys2Proof

/-! ### Fields (R60) -/

/-- `w[31:24]`, the opcode. -/
def opField (w : CommandWord) : Byte := w.extractLsb' 24 8
/-- `w[23:16]`, the first operand field. -/
def aField (w : CommandWord) : Byte := w.extractLsb' 16 8
/-- `w[15:8]`, the second operand field. -/
def bField (w : CommandWord) : Byte := w.extractLsb' 8 8
/-- `w[7:0]`, the third operand field. -/
def cField (w : CommandWord) : Byte := w.extractLsb' 0 8

/-- The word with the four given fields. -/
def packWord (op a b c : Byte) : CommandWord := op ++ a ++ b ++ c

/-- `sext_8(f)`: the field read as two's complement (R13). -/
def sext8 (f : Byte) : Int := if f.toNat < 128 then f.toNat else f.toNat - 256

/-- The 8-bit field that carries an integer in -128..127 (the inverse of `sext8`, R61). -/
def field8 (n : Int) : Byte := BitVec.ofInt 8 n

/-! ### The opcode map (R63) -/

/-- The three formats (R60). -/
inductive Format where
  | z
  | k
  | r
  deriving DecidableEq, Repr

/-- The commands without their operands: one per row of R63. -/
inductive Opcode where
  | valof | chrof | clr | dec | enc | csum | setb | clrb | chkb | addo | remo | enopt | avopt | bits
  deriving DecidableEq, Repr

/-- Every row of R63, in its order. -/
def Opcode.all : List Opcode :=
  [.valof, .chrof, .clr, .dec, .enc, .csum, .setb, .clrb, .chkb, .addo, .remo, .enopt, .avopt, .bits]

/-- The column `op` of R63. -/
def Opcode.code : Opcode → Byte
  | .valof => 0x01
  | .chrof => 0x02
  | .clr => 0x10
  | .dec => 0x11
  | .enc => 0x12
  | .csum => 0x18
  | .setb => 0x20
  | .clrb => 0x21
  | .chkb => 0x22
  | .addo => 0x28
  | .remo => 0x29
  | .enopt => 0x2A
  | .avopt => 0x2B
  | .bits => 0x30

/-- The column `format` of R63. -/
def Opcode.format : Opcode → Format
  | .valof => .k
  | .chrof => .k
  | .clr => .z
  | .dec => .z
  | .enc => .z
  | .csum => .z
  | .setb => .r
  | .clrb => .r
  | .chkb => .r
  | .addo => .z
  | .remo => .z
  | .enopt => .z
  | .avopt => .z
  | .bits => .z

/-- The column `mnemonic` of R63. -/
def Opcode.mnemonic : Opcode → String
  | .valof => "VALOF"
  | .chrof => "CHROF"
  | .clr => "CLR"
  | .dec => "DEC"
  | .enc => "ENC"
  | .csum => "CSUM"
  | .setb => "SETB"
  | .clrb => "CLRB"
  | .chkb => "CHKB"
  | .addo => "ADDO"
  | .remo => "REMO"
  | .enopt => "ENOPT"
  | .avopt => "AVOPT"
  | .bits => "BITS"

/-- The assigned opcode with the given number, if there is one. -/
def Opcode.ofCode (c : Byte) : Option Opcode := Opcode.all.find? fun o => o.code == c

/-- The must-be-zero fields of a format are zero (R60). -/
def Format.fieldsLegal (f : Format) (a b c : Byte) : Bool :=
  match f with
  | .z => a == 0 && b == 0 && c == 0
  | .k => a == 0 && b == 0
  | .r => true

/-- Operand assembly (R61): format R sign-extends, CHROF zero-extends, VALOF takes a character code. -/
def Opcode.assemble (o : Opcode) (a b c : Byte) : Instr :=
  match o with
  | .valof => .valof c
  | .chrof => .chrof c.toNat
  | .clr => .clr
  | .dec => .dec
  | .enc => .enc
  | .csum => .csum
  | .setb => .setb (sext8 a) (sext8 b) (sext8 c)
  | .clrb => .clrb (sext8 a) (sext8 b) (sext8 c)
  | .chkb => .chkb (sext8 a) (sext8 b) (sext8 c)
  | .addo => .addo
  | .remo => .remo
  | .enopt => .enopt
  | .avopt => .avopt
  | .bits => .bits

/-- Why a word is no command (R64); both give the one status `IllegalCommand`. -/
inductive IllegalWord where
  /-- the opcode is none of the 14 assigned values. -/
  | unassignedOpcode
  /-- a must-be-zero field of a format Z or K command is nonzero. -/
  | nonzeroField
  deriving DecidableEq, Repr

/-- The decoder: every 32-bit word is exactly one command with its operands or illegal (R64). -/
def decode (w : CommandWord) : Except IllegalWord Instr :=
  match Opcode.ofCode (opField w) with
  | none => .error .unassignedOpcode
  | some o =>
    if o.format.fieldsLegal (aField w) (bField w) (cField w) then
      .ok (o.assemble (aField w) (bField w) (cField w))
    else
      .error .nonzeroField

/-! ### The encoder, from the same map -/

/-- The row of R63 a command stands in. -/
def Instr.opcode : Instr → Opcode
  | .valof _ => .valof
  | .chrof _ => .chrof
  | .clr => .clr
  | .dec => .dec
  | .enc => .enc
  | .csum => .csum
  | .setb _ _ _ => .setb
  | .clrb _ _ _ => .clrb
  | .chkb _ _ _ => .chkb
  | .addo => .addo
  | .remo => .remo
  | .enopt => .enopt
  | .avopt => .avopt
  | .bits => .bits

/-- The `a`, `b`, `c` fields of a command (R60, R61). -/
def Instr.fields : Instr → Byte × Byte × Byte
  | .valof ch => (0, 0, ch)
  | .chrof v => (0, 0, BitVec.ofNat 8 v)
  | .setb bo bi bs => (field8 bo, field8 bi, field8 bs)
  | .clrb bo bi bs => (field8 bo, field8 bi, field8 bs)
  | .chkb bo bi bs => (field8 bo, field8 bi, field8 bs)
  | .clr => (0, 0, 0)
  | .dec => (0, 0, 0)
  | .enc => (0, 0, 0)
  | .csum => (0, 0, 0)
  | .addo => (0, 0, 0)
  | .remo => (0, 0, 0)
  | .enopt => (0, 0, 0)
  | .avopt => (0, 0, 0)
  | .bits => (0, 0, 0)

/-- The command word of a well-formed command. -/
def encode (i : Instr) : CommandWord :=
  packWord i.opcode.code i.fields.1 i.fields.2.1 i.fields.2.2

/-! ### The host's view of the decoder -/

/-- The command word made of the low `nbits` bits of `w`; a command word has 32 bits (R60), so nothing
above them is kept. -/
def tableWord (nbits w : Nat) : CommandWord := BitVec.ofNat 32 (w % 2 ^ nbits)

/-- What the decoder reads from a word numbered as spec/opcode_table.json numbers its bits. -/
def decodeTableWord (nbits w : Nat) : Option Instr := (decode (tableWord nbits w)).toOption

end Sys2Proof
end

