-- ==== Sys2Proof/Machine/State.lean ====
section
/-! DEFINITION. The state of one block as plain data (spec/10_state.md), the responses it has delivered,
the lines its host has still to present, and the reset state (R32, R210). -/

namespace Sys2Proof.Machine

/-- The Code Payload: the 24 general registers `x[0]` .. `x[23]`, 8 bits each (R20). -/
abbrev Payload := Vector Byte 24

/-- `ENG`, the engine-state register (R23); its 2-bit code is `Eng.code`. -/
inductive Eng where
  | ready
  | deadUnavailable
  | deadMalformed
  deriving DecidableEq, Repr

/-- The status of a response (R66); its 8-bit code is `Status.code`. -/
inductive Status where
  | ok
  | invalidCode
  | optionNotFound
  | invalidRange
  | catalogUnavailable
  | catalogMalformed
  | notFound
  | illegalCommand
  deriving DecidableEq, Repr

/-- The response `(status, value)` that every command word gets (R65). -/
structure Response where
  status : Status
  value  : Byte
  deriving DecidableEq, Repr

/-- What stops the machine. The block has no such event: an error ends the one command that met it and is
a response (R185), and every command terminates (R215). Nothing raises a fault, so the type is empty. -/
inductive Fault : Type where
  deriving DecidableEq, Repr

/-- Why a run is given no meaning. -/
inductive Refusal where
  /-- Raised only by an arm of `exec` whose instruction has no meaning yet (safe); no arm does. -/
  | notModelled (mnemonic : String)
  /-- Raised by `step` on a host move `.str` longer than `STR`'s 232 bytes, to which the spec gives no
  meaning (R24, "any length 0..232"); safe. -/
  | strTooLong
  deriving DecidableEq, Repr

/-- Everything the spec gives one block. `SLEN` and `ICNT` are the lengths of `str` and `idx`: bytes and
entries at or beyond them hold no value and are left out (R24, R25, spec/93_implementation_defined.md U11).
`input` and `responses` are the model's own (log 1): the host's remaining lines and the run's list of
responses (R18). -/
structure State where
  /-- the payload registers `x[0..23]` (R20). -/
  x         : Payload
  /-- `ENG` (R23). -/
  eng       : Eng
  /-- `STR[0..SLEN-1]`, leftmost character first (R24). -/
  str       : List Byte
  /-- `IDX[0..ICNT-1]` (R25). -/
  idx       : List IndexWord
  /-- `SYM`, `CAT` and `CAT_LOAD` (R8, R26, R27); read-only. -/
  params    : Params
  /-- the lines the host will present, next first (R75). -/
  input     : List Line
  /-- the responses delivered so far, oldest first (R18). -/
  responses : List Response
  deriving DecidableEq, Repr

/-- `ENG` as reset sets it from `CAT_LOAD` (R23, R210). -/
def Eng.ofLoad : CatLoad → Eng
  | .ok => .ready
  | .unavailable => .deadUnavailable
  | .malformed => .deadMalformed

/-- A block with parameters `p` right after reset (R32): payload zero, `ENG` from `CAT_LOAD`, `STR` and
`IDX` empty. -/
def State.construct (p : Params) : State where
  x := Vector.replicate 24 0
  eng := Eng.ofLoad p.catLoad
  str := []
  idx := []
  params := p
  input := []
  responses := []

/-- The machine right after reset (R32), for the parameters log 2 names. -/
def State.reset : State := State.construct Config.resetParams

end Sys2Proof.Machine
end

