-- ==== Sys2Proof/Machine/Flags.lean ====
section
/-! DEFINITION. Status numbers. The block has no flags or condition codes (R30); what a command reports is
its response, whose numbers stand here (R66), with the code of `ENG` (R23). -/

namespace Sys2Proof.Machine

/-- The 8-bit code of a status (R66). -/
def Status.code : Status → Byte
  | .ok => 0
  | .invalidCode => 1
  | .optionNotFound => 2
  | .invalidRange => 3
  | .catalogUnavailable => 4
  | .catalogMalformed => 5
  | .notFound => 6
  | .illegalCommand => 7

/-- The 2-bit code of `ENG`; 3 is never taken (R23). -/
def Eng.code : Eng → BitVec 2
  | .ready => 0
  | .deadUnavailable => 1
  | .deadMalformed => 2

/-- A response as the port delivers it: `(status, value)`, 8 bits each (R65). -/
def Response.wire (r : Response) : Byte × Byte := (r.status.code, r.value)

end Sys2Proof.Machine
end

