-- ==== Sys2Proof/Machine/Ops.lean ====
section
/-! DEFINITION. The operations every command shares: delivering a response, `raise` and `respond` (R13),
the engine check (R181, R184), reset and the host's moves (R73, R210), and the host's reads (R33). -/

namespace Sys2Proof.Machine

/-- What a command's own rule ends with: `raise E`, or `respond(v)` in the state with all of the command's
writes made (R13). -/
abbrev Body := Except Status (State × Byte)

/-- Delivers one response; changes nothing else. -/
def State.deliver (s : State) (status : Status) (value : Byte) : State :=
  { s with responses := s.responses ++ [{ status := status, value := value }] }

/-- `raise E`, the one way an error is taken (R13, R185): no state is written, nothing is saved, the
response is `(E, 0)`. -/
def State.raise (s : State) (e : Status) : State := s.deliver e 0

/-- Ends a command begun in `s`: all its writes together on success, none on failure (R13, R48). -/
def State.finish (s : State) (body : Body) : State :=
  match body with
  | .error e => s.raise e
  | .ok (s', v) => s'.deliver .ok v

/-- Runs a legal command (R184): the engine check comes before the command's own checks. -/
def State.command (s : State) (body : Body) : Host.Outcome State Fault Refusal :=
  match s.eng with
  | .ready => .next (s.finish body)
  | .deadUnavailable => .next (s.raise .catalogUnavailable)
  | .deadMalformed => .next (s.raise .catalogMalformed)

/-- The response to a word that is no command (R64), whatever `ENG` is (R184). -/
def State.illegal (s : State) : State := s.raise .illegalCommand

/-- The host move `.reset` (R210): every piece of the block's state at its reset value, the parameters kept,
no response. -/
def State.applyReset (s : State) : State :=
  { State.construct s.params with input := s.input, responses := s.responses }

/-- The host move `.str` (R24, R73): sets `SLEN` and `STR`; it is no command and `ENG` does not matter. -/
def State.hostWriteStr (s : State) (text : List Byte) : Host.Outcome State Fault Refusal :=
  if text.length ≤ Config.strCapacity then .next { s with str := text } else .refused .strTooLong

/-! ### Host reads (R33): no side effect (R49) -/

/-- `SLEN` (R24). -/
def State.slen (s : State) : Byte := BitVec.ofNat 8 s.str.length
/-- `ICNT` (R25). -/
def State.icnt (s : State) : IndexWord := BitVec.ofNat 16 s.idx.length
/-- `STR[j]`; no value at or beyond `SLEN` (R24). -/
def State.readStr (s : State) (j : Nat) : Option Byte := s.str[j]?
/-- `IDX[j]`; no value at or beyond `ICNT` (R25). -/
def State.readIdx (s : State) (j : Nat) : Option IndexWord := s.idx[j]?
/-- `x[i]`, `i` in 0..23 (R20). -/
def State.readX (s : State) (i : Fin 24) : Byte := s.x[i]
/-- `SYM[v]`, `v` in 0..63 (R26). -/
def State.readSym (s : State) (v : Fin 64) : Byte := s.params.alphabet[v]
/-- `CAT[k]`; nothing at or beyond `N_CAT` (R27). -/
def State.readCat (s : State) (k : Nat) : Option Descriptor := s.params.catalog[k]?

end Sys2Proof.Machine
end

