-- ==== Sys2Proof/Machine/Operands.lean ====
section
/-! DEFINITION. Operand forms: the bit range of a coordinate triple (R130, R134), used by SETB, CLRB and CHKB
on their operands and by the option commands on a descriptor; the option named in `STR` (R150); and the
alphabet check on the payload (R21). -/

namespace Sys2Proof.Machine

/-- `valid(byte_offset, bit_offset, bit_size)` (R130). -/
abbrev Valid (byteOffset bitOffset bitSize : Int) : Prop :=
  1 ≤ byteOffset ∧ byteOffset ≤ 24 ∧ 0 ≤ bitOffset ∧ bitOffset ≤ 7 ∧
    1 ≤ bitSize ∧ 0 ≤ bitOffset - bitSize + 1

/-- A validated bit range: the payload byte and its lowest and highest bit (R16). -/
structure BitRange where
  index : Fin 24
  lo    : Nat
  hi    : Nat
  deriving DecidableEq, Repr

/-- The range of a coordinate triple, if it is valid: `i = byte_offset - 1`, `hi = bit_offset`,
`lo = bit_offset - bit_size + 1` (R130, R131); never clipped, wrapped or merged (R136). -/
def bitRange? (byteOffset bitOffset bitSize : Int) : Option BitRange :=
  if h : Valid byteOffset bitOffset bitSize then
    some { index := ⟨(byteOffset - 1).toNat, by omega⟩
           lo := (bitOffset - bitSize + 1).toNat
           hi := bitOffset.toNat }
  else
    none

/-- `mask(lo, hi)`: the byte with bits `lo..hi` set (R13, R134). -/
def mask (lo hi : Nat) : Byte := BitVec.ofNat 8 (2 ^ (hi + 1) - 2 ^ lo)

/-- The mask of a range. -/
def BitRange.mask (r : BitRange) : Byte := Machine.mask r.lo r.hi

/-- The range a catalog descriptor names, validated at use time (R27, R130). -/
def descriptorRange? (d : Descriptor) : Option BitRange :=
  bitRange? d.byteOffset.toInt d.bitOffset.toInt d.bitSize.toInt

/-- `lookup(name)`: the catalog index whose name is the given byte string, compared exactly (R150). -/
def lookup (cat : Catalog) (name : List Byte) : Option (Fin cat.length) :=
  cat.findFinIdx? fun d => d.name == name

/-- The catalog entry of the given name, or `OptionNotFound` (R152, R153). -/
def namedDescriptor (cat : Catalog) (name : List Byte) : Except Status Descriptor :=
  match lookup cat name with
  | none => .error .optionNotFound
  | some k => .ok cat[k]

/-- The descriptor that `STR` names, for ADDO and REMO (R152, R153). -/
def State.namedOption (s : State) : Except Status Descriptor := namedDescriptor s.params.catalog s.str

/-- `InAlphabet`: every payload value is at most 63 (R21). -/
abbrev InAlphabet (x : Payload) : Prop := ∀ i : Fin 24, x[i].toNat ≤ 63

end Sys2Proof.Machine
end

