-- ==== Sys2Proof/Machine/SymbolTable.lean ====
section
/-! DEFINITION. The Symbol Table functions and the commands VALOF and CHROF (spec/40_symbol_table.md). -/

namespace Sys2Proof.Machine

/-- `value_of(ch)`: the value whose symbol is `ch`, or `NotFound` (R90). -/
def valueOf (sym : Alphabet) (ch : Byte) : Option Nat := sym.toList.findIdx? fun c => c == ch

/-- `char_of(v)`: `SYM[v]`, or `NotFound` for `v >= 64` (R91). -/
def charOf (sym : Alphabet) (v : Nat) : Option Byte := sym[v]?

/-- VALOF (R92). -/
def execValof (ch : Byte) (s : State) : Host.Outcome State Fault Refusal :=
  s.command <|
    match valueOf s.params.alphabet ch with
    | none => .error .notFound
    | some v => .ok (s, BitVec.ofNat 8 v)

/-- CHROF (R93). -/
def execChrof (v : Nat) (s : State) : Host.Outcome State Fault Refusal :=
  s.command <|
    match charOf s.params.alphabet v with
    | none => .error .notFound
    | some ch => .ok (s, ch)

end Sys2Proof.Machine
end

