-- ==== Sys2Proof/Machine/Checksum.lean ====
section
/-! DEFINITION. The positional check digit and the command CSUM (spec/42_checksum.md). -/

namespace Sys2Proof.Machine

/-- `digsum(n)`: the sum of the decimal digits of `n`, one pass (R121). -/
def digsum (n : Nat) : Nat := (Nat.digits 10 n).sum

/-- What payload position `i` holding `b` adds to `result`: even positions are doubled (R122). -/
def checksumTerm (i b : Nat) : Nat := if i % 2 = 0 then digsum (2 * b) else digsum b

/-- `result` of R122: the terms of positions 0 to 23. -/
def checksumResult (x : Payload) : Nat :=
  (List.ofFn fun i : Fin 24 => checksumTerm i x[i].toNat).sum

/-- `checksum(x)` (R122), for a payload in the alphabet. -/
def checksum (x : Payload) : Nat := (10 - checksumResult x % 10) % 10

/-- The check digit is a digit (R125). -/
theorem checksum_lt_ten (x : Payload) : checksum x < 10 := Nat.mod_lt _ (by decide)

/-- The check digit has a symbol (R107). -/
theorem checksum_lt_alphabet (x : Payload) : checksum x < 64 := by
  have h := checksum_lt_ten x
  omega

/-- CSUM (R120). -/
def execCsum (s : State) : Host.Outcome State Fault Refusal :=
  s.command <|
    if InAlphabet s.x then .ok (s, BitVec.ofNat 8 (checksum s.x)) else .error .notFound

end Sys2Proof.Machine
end

