-- ==== Sys2Proof/Machine/Transcoding.lean ====
section
/-! DEFINITION. The commands CLR, DEC and ENC (spec/41_transcoding.md) over the code-string format of
spec/30_encoding.md section 4. -/

namespace Sys2Proof.Machine

/-- `pos(j)`: where the data symbol of `x[j]` stands in a code string (R42). -/
def pos (j : Nat) : Nat :=
  if j < 6 then j else if j < 12 then j + 1 else if j < 18 then j + 4 else j + 5

/-- The dash positions of the full form (R68). -/
def fullDashes : List Nat := [6, 13, 15, 22]
/-- The dash positions of the legacy form (R69). -/
def legacyDashes : List Nat := [6, 13]

/-- Step 2 of R102 at one position: a dash where the form has one, else a character of `ALPHA`. -/
def positionMatches (sym : Alphabet) (dashes : List Nat) (s : List Byte) (j : Nat) : Bool :=
  match s[j]? with
  | none => false
  | some ch => if dashes.contains j then ch == Config.dash else (valueOf sym ch).isSome

/-- The string has length `n` and matches the form with the given dash positions (R68, R69, R71). -/
def matchesForm (sym : Alphabet) (n : Nat) (dashes : List Nat) (s : List Byte) : Bool :=
  s.length == n && (List.range n).all (positionMatches sym dashes s)

/-- The value of the symbol at string position `k`. After `matchesForm` there is one at every symbol
position (R104; `Laws.matchesForm_symbol`), so the last two cases are never taken there. -/
def symbolAt (sym : Alphabet) (s : List Byte) (k : Nat) : Byte :=
  match s[k]? with
  | none => 0
  | some ch =>
    match valueOf sym ch with
    | none => 0
    | some v => BitVec.ofNat 8 v

/-- Step 3 of R102: the first `n` payload bytes from the string, the rest 0 (the groups D and E of a legacy
string, R105). -/
def decodedPayload (sym : Alphabet) (n : Nat) (s : List Byte) : Payload :=
  Vector.ofFn fun j : Fin 24 => if j.val < n then symbolAt sym s (pos j) else 0

/-- `decode(string)` (R102, R103): the length alone tells the two forms apart (R70). -/
def decodeString (sym : Alphabet) (s : List Byte) : Option Payload :=
  if matchesForm sym 29 fullDashes s then some (decodedPayload sym 24 s)
  else if matchesForm sym 15 legacyDashes s then some (decodedPayload sym 12 s)
  else none


/-- The 24 data symbols of a payload in the alphabet, in order. -/
def dataSymbols (sym : Alphabet) (x : Payload) (h : InAlphabet x) : List Byte :=
  List.ofFn fun j : Fin 24 => sym[x[j].toNat]'(Nat.lt_succ_of_le (h j))

/-- `encode(Payload)`: the 29 characters `A-B-checksum-D-E` of a payload in the alphabet (R107). -/
def encodeString (sym : Alphabet) (x : Payload) (h : InAlphabet x) : List Byte :=
  let t := dataSymbols sym x h
  let digit := sym[(⟨checksum x, checksum_lt_alphabet x⟩ : Fin 64)]
  t.take 6 ++ [Config.dash] ++ (t.drop 6).take 6 ++ [Config.dash] ++ [digit] ++ [Config.dash] ++
    (t.drop 12).take 6 ++ [Config.dash] ++ t.drop 18

/-- CLR (R100): construct-default on a live engine. -/
def execClr (s : State) : Host.Outcome State Fault Refusal :=
  s.command <| .ok ({ s with x := Vector.replicate 24 0 }, 0)

/-- DEC (R102): the received check character is ignored (R104). -/
def execDec (s : State) : Host.Outcome State Fault Refusal :=
  s.command <|
    match decodeString s.params.alphabet s.str with
    | none => .error .invalidCode
    | some x => .ok ({ s with x := x }, 0)

/-- ENC (R107), with the check of R108 first. -/
def execEnc (s : State) : Host.Outcome State Fault Refusal :=
  s.command <|
    if h : InAlphabet s.x then .ok ({ s with str := encodeString s.params.alphabet s.x h }, 0)
    else .error .notFound

end Sys2Proof.Machine
end

