-- ==== Sys2Proof/Machine/BitDisplay.lean ====
section
/-! DEFINITION. The command BITS, the bit display of the code string (spec/45_bit_display.md). -/

namespace Sys2Proof.Machine

/-- `bits8(v)`: eight characters, bit 0 first (R171). -/
def bits8 (v : Nat) : List Byte :=
  (List.range 8).map fun k => if v.testBit k then Config.charOne else Config.charZero

/-- The token of one character of the code string (R170): a dash stays a dash, a symbol becomes the bits of
its value; a character outside the alphabet has none (R95). -/
def displayToken (sym : Alphabet) (ch : Byte) : Option (List Byte) :=
  if ch = Config.dash then some [Config.dash] else (valueOf sym ch).map bits8

/-- The tokens of a string. -/
def displayTokens (sym : Alphabet) : List Byte → Option (List (List Byte))
  | [] => some []
  | ch :: rest =>
    match displayToken sym ch, displayTokens sym rest with
    | some t, some ts => some (t :: ts)
    | _, _ => none

/-- The tokens joined by exactly one `SPACE` (R172). -/
def joinTokens (tokens : List (List Byte)) : List Byte := List.intercalate [Config.space] tokens

/-- BITS (R170). Every character ENC writes is a dash or a symbol, so the inner `NotFound` does not arise
for a legal alphabet. -/
def execBits (s : State) : Host.Outcome State Fault Refusal :=
  s.command <|
    if h : InAlphabet s.x then
      match displayTokens s.params.alphabet (encodeString s.params.alphabet s.x h) with
      | none => .error .notFound
      | some tokens => .ok ({ s with str := joinTokens tokens }, 0)
    else .error .notFound

end Sys2Proof.Machine
end

