-- ==== Sys2Proof/Machine/BitField.lean ====
section
/-! DEFINITION. The bit-field unit and the commands SETB, CLRB and CHKB (spec/43_bitfield.md). -/

namespace Sys2Proof.Machine

/-- Sets every bit of the range, leaving other bits and bytes untouched (R131). -/
def setBits (x : Payload) (r : BitRange) : Payload := x.set r.index (x[r.index] ||| r.mask)

/-- Clears every bit of the range, leaving other bits and bytes untouched (R132). -/
def clearBits (x : Payload) (r : BitRange) : Payload := x.set r.index (x[r.index] &&& ~~~ r.mask)

/-- Whether every bit of the range is 1 (R133). -/
def checkBits (x : Payload) (r : BitRange) : Bool := (x[r.index] &&& r.mask) == r.mask

/-- Edits the payload through a range, or raises `InvalidRange` if there is none (R131, R132). -/
def State.editRange (s : State) (range : Option BitRange) (edit : Payload → BitRange → Payload) : Body :=
  match range with
  | none => .error .invalidRange
  | some r => .ok ({ s with x := edit s.x r }, 0)

/-- SETB (R131). -/
def execSetb (byteOffset bitOffset bitSize : Int) (s : State) : Host.Outcome State Fault Refusal :=
  s.command <| s.editRange (bitRange? byteOffset bitOffset bitSize) setBits

/-- CLRB (R132). -/
def execClrb (byteOffset bitOffset bitSize : Int) (s : State) : Host.Outcome State Fault Refusal :=
  s.command <| s.editRange (bitRange? byteOffset bitOffset bitSize) clearBits

/-- CHKB (R133). -/
def execChkb (byteOffset bitOffset bitSize : Int) (s : State) : Host.Outcome State Fault Refusal :=
  s.command <|
    match bitRange? byteOffset bitOffset bitSize with
    | none => .error .invalidRange
    | some r => .ok (s, if checkBits s.x r then 1 else 0)

end Sys2Proof.Machine
end

