-- ==== Sys2Proof/Machine/Options.lean ====
section
/-! DEFINITION. The option commands ADDO, REMO, ENOPT and AVOPT (spec/44_options.md) and the presentation
order of the catalog (R28). -/

namespace Sys2Proof.Machine

/-- The sort key's order (R28): `(byte_offset, bit_offset, bit_size)`, lexicographic, as integers. -/
abbrev keyLe (d e : Descriptor) : Prop :=
  d.byteOffset.toInt < e.byteOffset.toInt ∨
    (d.byteOffset.toInt = e.byteOffset.toInt ∧
      (d.bitOffset.toInt < e.bitOffset.toInt ∨
        (d.bitOffset.toInt = e.bitOffset.toInt ∧ d.bitSize.toInt ≤ e.bitSize.toInt)))

/-- The catalog's entries with their insertion indices, in presentation order: a stable sort, so equal keys
keep insertion order (R28). -/
def presentation (cat : Catalog) : List (Descriptor × Nat) :=
  cat.zipIdx.insertionSort fun d e => keyLe d.1 e.1

/-- `PORD`: the catalog indices in presentation order (R28). -/
def pord (cat : Catalog) : List Nat := (presentation cat).map Prod.snd

/-- `enabled(k)`: what CHKB returns for the descriptor's coordinates (R155). It is used only after every
descriptor has been found valid (R157), so the first case is never taken there. -/
def enabled (x : Payload) (d : Descriptor) : Bool :=
  match descriptorRange? d with
  | none => false
  | some r => checkBits x r

/-- Every descriptor of the catalog is valid (R156 to R158). -/
def allValid (cat : Catalog) : Bool := cat.all fun d => (descriptorRange? d).isSome

/-- The insertion indices of the selected entries, in presentation order, as `IDX` holds them
(R156, R158). -/
def selectIndices (cat : Catalog) (select : Descriptor → Bool) : List IndexWord :=
  ((presentation cat).filter fun e => select e.1).map fun e => BitVec.ofNat 16 e.2

/-- Writes the indices of the selected entries to `IDX`, or raises `InvalidRange` if any descriptor is bad
(R157). -/
def State.enumerate (s : State) (select : Descriptor → Bool) : Body :=
  if allValid s.params.catalog then .ok ({ s with idx := selectIndices s.params.catalog select }, 0)
  else .error .invalidRange

/-- Edits the payload through the option that `STR` names: `OptionNotFound` first, then `InvalidRange`
(R152, R153, R184). -/
def State.editOption (s : State) (edit : Payload → BitRange → Payload) : Body :=
  match s.namedOption with
  | .error e => .error e
  | .ok d => s.editRange (descriptorRange? d) edit

/-- ADDO (R152). -/
def execAddo (s : State) : Host.Outcome State Fault Refusal :=
  s.command <| s.editOption setBits

/-- REMO (R153). -/
def execRemo (s : State) : Host.Outcome State Fault Refusal :=
  s.command <| s.editOption clearBits

/-- ENOPT (R156). -/
def execEnopt (s : State) : Host.Outcome State Fault Refusal :=
  s.command <| s.enumerate fun d => enabled s.x d

/-- AVOPT (R158). -/
def execAvopt (s : State) : Host.Outcome State Fault Refusal :=
  s.command <| s.enumerate fun d => !enabled s.x d

end Sys2Proof.Machine
end

