-- ==== Sys2Proof/Machine/Dispatch.lean ====
section
/-! DEFINITION. One arm per constructor of Instr: each calls the meaning of its command. -/

namespace Sys2Proof.Machine

def exec (i : Instr) (s : State) : Host.Outcome State Fault Refusal :=
  match i with
  | .valof ch => Sys2Proof.Machine.execValof ch s
  | .chrof v => Sys2Proof.Machine.execChrof v s
  | .clr => Sys2Proof.Machine.execClr s
  | .dec => Sys2Proof.Machine.execDec s
  | .enc => Sys2Proof.Machine.execEnc s
  | .csum => Sys2Proof.Machine.execCsum s
  | .setb bo bi bs => Sys2Proof.Machine.execSetb bo bi bs s
  | .clrb bo bi bs => Sys2Proof.Machine.execClrb bo bi bs s
  | .chkb bo bi bs => Sys2Proof.Machine.execChkb bo bi bs s
  | .addo => Sys2Proof.Machine.execAddo s
  | .remo => Sys2Proof.Machine.execRemo s
  | .enopt => Sys2Proof.Machine.execEnopt s
  | .avopt => Sys2Proof.Machine.execAvopt s
  | .bits => Sys2Proof.Machine.execBits s

end Sys2Proof.Machine
end

