-- ==== Sys2Proof/Machine/Step.lean ====
section
/-! DEFINITION. One step: the block serves the next line its host presents (R17, R75). -/

namespace Sys2Proof.Machine

/-- One step. Lines are taken in list order, each once, whatever statuses the commands return (R75). With no
line left the block is idle and nothing changes (R183, R192; log 1). -/
def step (s : State) : Host.Outcome State Fault Refusal :=
  match s.input with
  | [] => .next s
  | .reset :: rest => .next (State.applyReset { s with input := rest })
  | .str text :: rest => State.hostWriteStr { s with input := rest } text
  | .cmd w :: rest =>
    match decode w with
    | .error _ => .next (State.illegal { s with input := rest })
    | .ok i => exec i { s with input := rest }

/-- `s` with the given word as the next line its host presents. -/
def State.withFetchWord (s : State) (nbits w : Nat) : State :=
  { s with input := .cmd (tableWord nbits w) :: s.input }

end Sys2Proof.Machine
end

