-- ==== Sys2Proof/Machine/Assembler.lean ====
section
/-! DEFINITION. The assembly of a host's program (spec/30_encoding.md section 5: R72 to R75), from the 8-bit
characters of a line to the lines the block is presented. A line that R72 to R74 give no meaning is
refused with `none` (log 6). -/

namespace Sys2Proof.Machine

/-- The character codes of a text. -/
def ascii (text : String) : List Byte := text.toList.map fun c => BitVec.ofNat 8 c.toNat

/-- The lexical elements of a line. -/
inductive Token where
  /-- a mnemonic, a host move, a pseudo-command or an integer. -/
  | word (chars : List Byte)
  /-- `'x'`. -/
  | char (ch : Byte)
  /-- `"text"`. -/
  | text (chars : List Byte)
  /-- `,`. -/
  | comma
  deriving DecidableEq, Repr

/-- Where the scan of a line stands; collected characters are held newest first. -/
inductive LexMode where
  | gap
  | word (seen : List Byte)
  | text (seen : List Byte)
  | quote
  | closeQuote (ch : Byte)
  deriving DecidableEq, Repr

/-- Scans a line into tokens; `;` starts a comment (R72). DESIGN CHOICE (log 6, unsafe): a `;` inside quotes is
text, a text ends at the next double quote, and spaces alone separate. -/
def lex : LexMode → List Byte → Option (List Token)
  | .gap, [] => some []
  | .word seen, [] => some [.word seen.reverse]
  | .text _, [] => none
  | .quote, [] => none
  | .closeQuote _, [] => none
  | .gap, c :: cs =>
    if c = 0x20 then lex .gap cs
    else if c = 0x3B then some []
    else if c = 0x2C then (lex .gap cs).map (Token.comma :: ·)
    else if c = 0x22 then lex (.text []) cs
    else if c = 0x27 then lex .quote cs
    else lex (.word [c]) cs
  | .word seen, c :: cs =>
    if c = 0x20 then (lex .gap cs).map (Token.word seen.reverse :: ·)
    else if c = 0x3B then some [.word seen.reverse]
    else if c = 0x2C then (lex .gap cs).map (Token.word seen.reverse :: Token.comma :: ·)
    else lex (.word (c :: seen)) cs
  | .text seen, c :: cs =>
    if c = 0x22 then (lex .gap cs).map (Token.text seen.reverse :: ·) else lex (.text (c :: seen)) cs
  | .quote, c :: cs => lex (.closeQuote c) cs
  | .closeQuote ch, c :: cs => if c = 0x27 then (lex .gap cs).map (Token.char ch :: ·) else none

/-- The value of one digit character in bases up to 16. DESIGN CHOICE (log 6, unsafe): a letter digit of either
case. -/
def digitValue (c : Byte) : Option Nat :=
  let n := c.toNat
  if 0x30 ≤ n ∧ n ≤ 0x39 then some (n - 0x30)
  else if 0x41 ≤ n ∧ n ≤ 0x46 then some (n - 0x41 + 10)
  else if 0x61 ≤ n ∧ n ≤ 0x66 then some (n - 0x61 + 10)
  else none

/-- The number whose digits, in the given base, follow those already read. -/
def readDigits (base : Nat) : Nat → List Byte → Option Nat
  | n, [] => some n
  | n, c :: cs =>
    match digitValue c with
    | none => none
    | some d => if d < base then readDigits base (n * base + d) cs else none

/-- A non-negative integer, decimal or `0x` hexadecimal (R72). DESIGN CHOICE (log 6, unsafe): leading zeros are
allowed. -/
def readNat : List Byte → Option Nat
  | [] => none
  | 0x30 :: 0x78 :: c :: cs => readDigits 16 0 (c :: cs)
  | c :: cs => readDigits 10 0 (c :: cs)

/-- An integer; a leading `-` negates a decimal one (R72). DESIGN CHOICE (log 6, unsafe): it negates a `0x`
hexadecimal one too, on which R72 is silent (`-0x10` is -16). -/
def readInt : List Byte → Option Int
  | 0x2D :: cs => (readNat cs).map fun n => -(n : Int)
  | cs => (readNat cs).map fun n => (n : Int)

/-- An operand: an integer or a character standing for its code (R72). DESIGN CHOICE (log 6, unsafe): either may
stand for any operand. -/
def readOperand : Token → Option Int
  | .word cs => readInt cs
  | .char ch => some ch.toNat
  | .text _ => none
  | .comma => none

/-- Operands separated by commas (R72). -/
def readOperands : List Token → Option (List Int)
  | [] => some []
  | [t] => (readOperand t).map fun n => [n]
  | t :: .comma :: u :: ts =>
    match readOperand t, readOperands (u :: ts) with
    | some n, some ns => some (n :: ns)
    | _, _ => none
  | _ => none

/-- The row of R63 with the given mnemonic, in capitals. -/
def Opcode.ofMnemonic (name : List Byte) : Option Opcode :=
  Opcode.all.find? fun o => ascii o.mnemonic == name

/-- The command with the given operands, in field order (R72). -/
def commandOf (o : Opcode) (operands : List Int) : Option Instr :=
  match o, operands with
  | .valof, [c] => if 0 ≤ c ∧ c ≤ 255 then some (.valof (BitVec.ofInt 8 c)) else none
  | .chrof, [v] => if 0 ≤ v then some (.chrof v.toNat) else none
  | .clr, [] => some .clr
  | .dec, [] => some .dec
  | .enc, [] => some .enc
  | .csum, [] => some .csum
  | .setb, [a, b, c] => some (.setb a b c)
  | .clrb, [a, b, c] => some (.clrb a b c)
  | .chkb, [a, b, c] => some (.chkb a b c)
  | .addo, [] => some .addo
  | .remo, [] => some .remo
  | .enopt, [] => some .enopt
  | .avopt, [] => some .avopt
  | .bits, [] => some .bits
  | _, _ => none

/-- A command as the line that presents its word; operands its fields cannot carry are refused (R62). -/
def commandLine (i : Instr) : Option (List Line) := if i.wf then some [.cmd (encode i)] else none

/-! ### Pseudo-commands (R74) -/

/-- `NEW`: construct-default. -/
def newDefault : List Line := [.reset]
/-- `NEW "text"`: construct-from-string (R211). -/
def newFrom (text : List Byte) : List Line := [.reset, .str text, .cmd (encode .dec)]
/-- `OPT+ "name"`. -/
def optAdd (name : List Byte) : List Line := [.str name, .cmd (encode .addo)]
/-- `OPT- "name"`. -/
def optRemove (name : List Byte) : List Line := [.str name, .cmd (encode .remo)]

/-- What a line's tokens stand for: nothing, a host move (R73), a pseudo-command (R74) or a command (R72). -/
def linesOf : List Token → Option (List Line)
  | [] => some []
  | [.word w, .text t] =>
    if w = ascii ".str" then some [.str t]
    else if w = ascii "NEW" then some (newFrom t)
    else if w = ascii "OPT+" then some (optAdd t)
    else if w = ascii "OPT-" then some (optRemove t)
    else none
  | .word w :: ts =>
    if w = ascii ".reset" then if ts = [] then some [.reset] else none
    else if w = ascii "NEW" then if ts = [] then some newDefault else none
    else
      match Opcode.ofMnemonic w, readOperands ts with
      | some o, some operands => (commandOf o operands).bind commandLine
      | _, _ => none
  | _ => none

/-- Assembles one line. -/
def assembleLine (text : List Byte) : Option (List Line) := (lex .gap text).bind linesOf

/-- Assembles a program, top to bottom (R75). -/
def assemble : List (List Byte) → Option (List Line)
  | [] => some []
  | text :: rest =>
    match assembleLine text, assemble rest with
    | some ls, some more => some (ls ++ more)
    | _, _ => none

/-- The block with a program for its host to present next, in list order (R75). -/
def State.present (s : State) (program : List Line) : State := { s with input := program }

end Sys2Proof.Machine
end

