-- ==== Sys2Proof/Safety.lean ====
section
/-! DEFINITION. The terms claims are stated in, written from the spec's own words and apart from the
meanings: the opcode map, the code string, the check digit, bit ranges, the presentation order, the bit
display, the invariant of a block and a run of a host's program. -/

namespace Sys2Proof.Machine

/-! ### Responses -/

/-- `s` with one more response delivered and nothing else changed (R65, R185). -/
def State.answered (s : State) (status : Status) (value : Byte) : State :=
  { s with responses := s.responses ++ [{ status := status, value := value }] }

/-- While the engine is dead the command answers the catalog status and writes nothing (R23, R181). -/
def RefusedWhenDead (i : Instr) (s : State) : Prop :=
  (s.eng = .deadUnavailable → exec i s = .next (s.answered .catalogUnavailable 0)) ∧
  (s.eng = .deadMalformed → exec i s = .next (s.answered .catalogMalformed 0))

/-- R180, transcribed by command: the failing statuses of a live engine. -/
def ownStatuses : Instr → List Status
  | .valof _ => [.notFound]
  | .chrof _ => [.notFound]
  | .clr => []
  | .dec => [.invalidCode]
  | .enc => [.notFound]
  | .csum => [.notFound]
  | .setb _ _ _ => [.invalidRange]
  | .clrb _ _ _ => [.invalidRange]
  | .chkb _ _ _ => [.invalidRange]
  | .addo => [.optionNotFound, .invalidRange]
  | .remo => [.optionNotFound, .invalidRange]
  | .enopt => [.invalidRange]
  | .avopt => [.invalidRange]
  | .bits => [.notFound]

/-! ### The opcode map -/

/-- R63, transcribed: the command, `match`, `mask`. -/
def opcodeMap : List (Opcode × CommandWord × CommandWord) :=
  [(.valof, 0x01000000, 0xFFFFFF00), (.chrof, 0x02000000, 0xFFFFFF00),
   (.clr, 0x10000000, 0xFFFFFFFF), (.dec, 0x11000000, 0xFFFFFFFF), (.enc, 0x12000000, 0xFFFFFFFF),
   (.csum, 0x18000000, 0xFFFFFFFF),
   (.setb, 0x20000000, 0xFF000000), (.clrb, 0x21000000, 0xFF000000), (.chkb, 0x22000000, 0xFF000000),
   (.addo, 0x28000000, 0xFFFFFFFF), (.remo, 0x29000000, 0xFFFFFFFF),
   (.enopt, 0x2A000000, 0xFFFFFFFF), (.avopt, 0x2B000000, 0xFFFFFFFF),
   (.bits, 0x30000000, 0xFFFFFFFF)]

/-! ### Code strings -/

/-- Six symbols of a code string: those of the values at `start .. start + 5`. -/
def codeGroup (sym : Alphabet) (y : Nat → Fin 64) (start : Nat) : List Byte :=
  List.ofFn fun j : Fin 6 => sym[y (start + j)]

/-- `AAAAAA-BBBBBB-C-DDDDDD-EEEEEE` (R68) with the values `y 0 .. y 23` and the check character `c`. -/
def fullCode (sym : Alphabet) (y : Nat → Fin 64) (c : Byte) : List Byte :=
  codeGroup sym y 0 ++ [Config.dash] ++ codeGroup sym y 6 ++ [Config.dash] ++ [c] ++ [Config.dash] ++
    codeGroup sym y 12 ++ [Config.dash] ++ codeGroup sym y 18

/-- `AAAAAA-BBBBBB-C` (R69) with the values `y 0 .. y 11` and the check character `c`. -/
def legacyCode (sym : Alphabet) (y : Nat → Fin 64) (c : Byte) : List Byte :=
  codeGroup sym y 0 ++ [Config.dash] ++ codeGroup sym y 6 ++ [Config.dash] ++ [c]

/-- The string matches the full pattern (R68). -/
def FullForm (sym : Alphabet) (s : List Byte) : Prop :=
  ∃ (y : Nat → Fin 64) (c : Byte), c ∈ sym.toList ∧ s = fullCode sym y c

/-- The string matches the legacy pattern (R69). -/
def LegacyForm (sym : Alphabet) (s : List Byte) : Prop :=
  ∃ (y : Nat → Fin 64) (c : Byte), c ∈ sym.toList ∧ s = legacyCode sym y c

/-- The payload whose bytes are the values `y 0 .. y 23`. -/
@[irreducible] def payloadOf (y : Nat → Fin 64) : Payload := Vector.ofFn fun j : Fin 24 => BitVec.ofNat 8 (y j).val

/-- The values of a legacy string: those of groups A and B, then zero symbols (R69, R105). -/
def legacyValues (y : Nat → Fin 64) : Nat → Fin 64 := fun j => if j < 12 then y j else 0

/-- The payload holds the values `y`, all of them in the alphabet (R21). -/
def HoldsValues (x : Payload) (y : Nat → Fin 64) : Prop := ∀ j : Fin 24, x[j].toNat = (y j).val

/-- Some payload byte is above 63 (R21, R108). -/
def OutOfAlphabet (x : Payload) : Prop := ∃ j : Fin 24, 63 < x[j].toNat

/-! ### The check digit -/

/-- The digit sum of a number below 1000, as R121 writes it out. -/
def digitSum (n : Nat) : Nat := n / 100 + n / 10 % 10 + n % 10

/-- `result` of R122 over the values `y 0 .. y 23`. -/
def luhnResult (y : Nat → Fin 64) : Nat :=
  ∑ i ∈ Finset.range 24, if i % 2 = 0 then digitSum (2 * (y i).val) else digitSum (y i).val

/-- The check digit of R122 over the values `y 0 .. y 23`. -/
def checkDigit (y : Nat → Fin 64) : Nat := (10 - luhnResult y % 10) % 10

/-- The character of the check digit: `0x30 + checksum` (R107, R125). -/
def checkCharacter (y : Nat → Fin 64) : Byte := BitVec.ofNat 8 (0x30 + checkDigit y)

/-! ### Bit ranges -/

/-- R130: the four conditions on a coordinate triple. -/
def RangeIsValid (byteOffset bitOffset bitSize : Int) : Prop :=
  (1 ≤ byteOffset ∧ byteOffset ≤ 24) ∧ (0 ≤ bitOffset ∧ bitOffset ≤ 7) ∧ 1 ≤ bitSize ∧
    bitOffset - bitSize + 1 ≥ 0

/-- Bit `k` of payload byte `i` belongs to the range (R131): byte `byte_offset - 1`, bits
`bit_offset - bit_size + 1 .. bit_offset`. -/
def InRange (byteOffset bitOffset bitSize : Int) (i : Fin 24) (k : Nat) : Prop :=
  (i.val : Int) = byteOffset - 1 ∧ bitOffset - bitSize + 1 ≤ (k : Int) ∧ (k : Int) ≤ bitOffset

/-- `y` is `x` with every bit of the range 1 and every other bit as it was (R131). -/
def SetsExactly (byteOffset bitOffset bitSize : Int) (x y : Payload) : Prop :=
  ∀ (i : Fin 24) (k : Nat), k < 8 →
    (y[i].getLsbD k = true ↔ (InRange byteOffset bitOffset bitSize i k ∨ x[i].getLsbD k = true))

/-- `y` is `x` with every bit of the range 0 and every other bit as it was (R132). -/
def ClearsExactly (byteOffset bitOffset bitSize : Int) (x y : Payload) : Prop :=
  ∀ (i : Fin 24) (k : Nat), k < 8 →
    (y[i].getLsbD k = true ↔ (¬ InRange byteOffset bitOffset bitSize i k ∧ x[i].getLsbD k = true))

/-- Every bit of the range is 1 (R133). -/
def AllSet (byteOffset bitOffset bitSize : Int) (x : Payload) : Prop :=
  ∀ (i : Fin 24) (k : Nat), InRange byteOffset bitOffset bitSize i k → x[i].getLsbD k = true

/-! ### Options -/

/-- The descriptor's coordinates are valid (R130). -/
def DescriptorIsValid (d : Descriptor) : Prop :=
  RangeIsValid d.byteOffset.toInt d.bitOffset.toInt d.bitSize.toInt

/-- The option is enabled (R155). -/
def OptionEnabled (x : Payload) (d : Descriptor) : Prop :=
  AllSet d.byteOffset.toInt d.bitOffset.toInt d.bitSize.toInt x

/-- Catalog index `j` comes before `k` in presentation order (R28): by `(byte_offset, bit_offset, bit_size)`
as integers, equal keys by insertion index. -/
def PresentedBefore (cat : Catalog) (j k : Nat) : Prop :=
  ∃ d e, cat[j]? = some d ∧ cat[k]? = some e ∧
    (d.byteOffset.toInt < e.byteOffset.toInt ∨
      d.byteOffset.toInt = e.byteOffset.toInt ∧
        (d.bitOffset.toInt < e.bitOffset.toInt ∨
          d.bitOffset.toInt = e.bitOffset.toInt ∧
            (d.bitSize.toInt < e.bitSize.toInt ∨ d.bitSize.toInt = e.bitSize.toInt ∧ j < k)))

/-- `IDX` holds the catalog indices `ks`, 16 bits each (R25). -/
def indexWords (ks : List Nat) : List IndexWord := ks.map (BitVec.ofNat 16)

/-! ### The bit display -/

/-- `off(j)`: where token `j` of the bit display starts (R172). -/
def tokenOffset (j : Nat) : Nat :=
  if j ≤ 6 then 9 * j
  else if j ≤ 13 then 9 * j - 7
  else if j = 14 then 112
  else if j = 15 then 121
  else if j ≤ 22 then 9 * j - 21
  else 9 * j - 28

/-- Where the data symbol of `x[j]` stands in a full-form string (the table of R42). -/
def dataPosition (j : Nat) : Nat :=
  if j ≤ 5 then j else if j ≤ 11 then j + 1 else if j ≤ 17 then j + 4 else j + 5

/-- The eight characters at `start` are the bits of `v`, bit 0 first (R171). -/
def ShowsBits (out : List Byte) (start v : Nat) : Prop :=
  ∀ k < 8, out[start + k]? = some (if v.testBit k then 0x31 else 0x30)

/-- The 232 characters of the bit display (R170 to R172) of the values `y 0 .. y 23`. -/
structure IsBitDisplay (y : Nat → Fin 64) (out : List Byte) : Prop where
  length : out.length = 232
  data   : ∀ j < 24, ShowsBits out (tokenOffset (dataPosition j)) (y j).val
  digit  : ShowsBits out 112 (checkDigit y)
  dashes : ∀ j ∈ [6, 13, 15, 22], out[tokenOffset j]? = some Config.dash
  spaces : ∀ j, 1 ≤ j → j ≤ 28 → out[tokenOffset j - 1]? = some Config.space

/-! ### Invariant and runs -/

/-- The invariant of a block: legal parameters (R8), `ENG` as reset sampled it (R23), `STR` within its
capacity (R24), `IDX` a list of catalog indices without duplicates (R25, R159), and no value beside a failing
status (R65). -/
structure State.Inv (s : State) : Prop where
  params    : s.params.WF
  eng       : s.eng = Eng.ofLoad s.params.catLoad
  str       : s.str.length ≤ Config.strCapacity
  idx       : ∀ k ∈ s.idx, k.toNat < s.params.catalog.length
  idxNodup  : s.idx.Nodup
  responses : ∀ r ∈ s.responses, r.status ≠ .ok → r.value = 0

/-- `s'` is where the block stands after `n` steps from `s`, none of which stopped. -/
def RunsTo (n : Nat) (s s' : State) : Prop := Host.Core.run core n s = .next s'

/-- How many lines of a program are command words; each gets one response (R65). -/
def commandCount (program : List Line) : Nat :=
  program.countP fun l => match l with
    | .cmd _ => true
    | .reset => false
    | .str _ => false

end Sys2Proof.Machine
end

