-- ==== Sys2Proof/Certificates/Slice0/Obligations.lean ====
section
/-! DEFINITION. The statements for the provers. Each says of the machine what a numbered rule of the spec
says; `s.answered st v` is `s` with the response `(st, v)` delivered and nothing else changed, so an equation
`exec i s = .next (s.answered st v)` is at once result, frame and completion. -/

open Sys2Proof Sys2Proof.Machine

/-! ### Encoding -/

/-- One word of every row of R63, operands from R72's examples and spec/95_test_vectors.md, decodes to the
command it stands for. -/
def Obligations.SampleWordsDecodeAsWritten : Prop :=
  decode 0x01000037 = .ok (.valof 0x37) ∧ decode 0x02000009 = .ok (.chrof 9) ∧
  decode 0x10000000 = .ok .clr ∧ decode 0x11000000 = .ok .dec ∧ decode 0x12000000 = .ok .enc ∧
  decode 0x18000000 = .ok .csum ∧
  decode 0x2001FF01 = .ok (.setb 1 (-1) 1) ∧ decode 0x21180702 = .ok (.clrb 24 7 2) ∧
  decode 0x22180708 = .ok (.chkb 24 7 8) ∧
  decode 0x28000000 = .ok .addo ∧ decode 0x29000000 = .ok .remo ∧
  decode 0x2A000000 = .ok .enopt ∧ decode 0x2B000000 = .ok .avopt ∧ decode 0x30000000 = .ok .bits ∧
  decode 0x00000000 = .error .unassignedOpcode ∧ decode 0x10000001 = .error .nonzeroField

/-- Every well-formed command comes back from its word, every operand at every value (R60, R61). -/
def Obligations.DecodeOfEncodeGivesTheCommandBack : Prop :=
  ∀ i : Instr, i.wf = true → decode (encode i) = .ok i

/-- Every legal word is the word of the command it decodes to, so no two words stand for one command. -/
def Obligations.EncodeOfDecodeGivesTheWordBack : Prop :=
  ∀ (w : CommandWord) (i : Instr), decode w = .ok i → i.wf = true ∧ encode i = w

/-- R63: a word selects a command iff `(w AND mask) = match` of its row, and every command has one row. -/
def Obligations.MatchAndMaskSelectTheCommand : Prop :=
  (∀ (w : CommandWord), ∀ row ∈ opcodeMap,
    ((∃ i, decode w = .ok i ∧ i.opcode = row.1) ↔ w &&& row.2.2 = row.2.1)) ∧
  (∀ i : Instr, ∃ row ∈ opcodeMap, row.1 = i.opcode)

/-- R64: a word is illegal iff it matches no row, and an illegal word changes no state and gets the response
`(IllegalCommand, 0)`, whatever the engine state. -/
def Obligations.IllegalWordsGetIllegalCommand : Prop :=
  ∀ w : CommandWord,
    ((¬ ∃ i, decode w = .ok i) ↔ ∀ row ∈ opcodeMap, w &&& row.2.2 ≠ row.2.1) ∧
    ((∀ row ∈ opcodeMap, w &&& row.2.2 ≠ row.2.1) → ∀ (s : State) (rest : List Line),
      s.input = .cmd w :: rest → step s = .next ({ s with input := rest }.answered .illegalCommand 0))

/-! ### Steps, host moves and programs -/

/-- A step on a command word that decodes to a command runs that command, the word taken from the host's
list. -/
def Obligations.StepRunsTheDecodedCommand : Prop :=
  ∀ (s : State) (w : CommandWord) (rest : List Line) (i : Instr),
    s.input = .cmd w :: rest → decode w = .ok i → step s = exec i { s with input := rest }

/-- R210, R32: reset sets `ENG` from `CAT_LOAD`, zeroes the payload, empties `STR` and `IDX`, keeps the
parameters and delivers no response. -/
def Obligations.ResetGivesEveryResetValue : Prop :=
  ∀ (s : State) (rest : List Line), s.input = .reset :: rest →
    ∃ t, step s = .next t ∧
      (∀ i : Fin 24, t.x[i] = 0) ∧
      (s.params.catLoad = .ok → t.eng = .ready) ∧
      (s.params.catLoad = .unavailable → t.eng = .deadUnavailable) ∧
      (s.params.catLoad = .malformed → t.eng = .deadMalformed) ∧
      t.str = [] ∧ t.idx = [] ∧ t.params = s.params ∧ t.input = rest ∧ t.responses = s.responses ∧
      t.slen = 0 ∧ t.icnt = 0

/-- R24, R73: `.str` sets the string register and nothing else, on a live and on a dead engine. A longer
text than the register holds is refused (the model's choice, log 5). -/
def Obligations.StrMoveWritesTheString : Prop :=
  ∀ (s : State) (text : List Byte) (rest : List Line), s.input = .str text :: rest →
    (text.length ≤ 232 → step s = .next { s with input := rest, str := text }) ∧
    (232 < text.length → step s = .refused .strTooLong)

/-- R75: a program is executed in list order, every line exactly once, whatever statuses its commands return:
after `n` steps exactly the first `n` lines are done, and each command word has been answered once. -/
def Obligations.ProgramRunsEveryLineOnceInOrder : Prop :=
  ∀ (s : State), (∀ l ∈ s.input, l.wf = true) → ∀ n ≤ s.input.length,
    ∃ t, RunsTo n s t ∧ t.input = s.input.drop n ∧
      t.responses.length = s.responses.length + commandCount (s.input.take n) ∧
      t.responses.take s.responses.length = s.responses

/-! ### Invariant -/

/-- The invariant holds right after reset, for every legal choice of the parameters, the one of `State.reset`
(the model's choice, log 2) among them. -/
def Obligations.ResetMeetsTheInvariant : Prop :=
  (∀ p : Params, p.WF → (State.construct p).Inv) ∧ State.reset.Inv

/-- Every step keeps the invariant. -/
def Obligations.EveryStepKeepsTheInvariant : Prop :=
  ∀ s t : State, s.Inv → step s = .next t → t.Inv

/-- R55, R23: no command and no host move writes `SYM`, `CAT` or `CAT_LOAD`, and `ENG` is written only by
reset. -/
def Obligations.OnlyResetWritesTheEngineState : Prop :=
  ∀ s t : State, step s = .next t →
    t.params = s.params ∧
    ((∃ rest, s.input = .reset :: rest) ∨ t.eng = s.eng)

/-! ### Symbol Table -/

/-- R90, R91: `value_of` and `char_of` are total and inverse on their domains; the digits have the values 0
to 9; `DASH`, `SPACE` and every code outside 0x21..0x7E have none. -/
def Obligations.SymbolTableIsABijection : Prop :=
  ∀ sym : Alphabet, sym.WF →
    (∀ v : Fin 64, charOf sym v = some sym[v] ∧ valueOf sym sym[v] = some v.val) ∧
    (∀ v : Nat, 64 ≤ v → charOf sym v = none) ∧
    (∀ (ch : Byte) (v : Nat), valueOf sym ch = some v → v < 64 ∧ charOf sym v = some ch) ∧
    (∀ ch : Byte, ch ∉ sym.toList → valueOf sym ch = none) ∧
    (∀ d : Nat, d < 10 → valueOf sym (BitVec.ofNat 8 (0x30 + d)) = some d ∧
      charOf sym d = some (BitVec.ofNat 8 (0x30 + d))) ∧
    valueOf sym Config.dash = none ∧ valueOf sym Config.space = none ∧
    (∀ ch : Byte, ch.toNat < 0x21 ∨ 0x7E < ch.toNat → valueOf sym ch = none)

/-- R92: VALOF answers the value of a character of the alphabet and `NotFound` for any other. -/
def Obligations.ValofAnswersTheSymbolValue : Prop :=
  (∀ ch : Byte, decode (0x010000#24 ++ ch) = .ok (.valof ch)) ∧
  ∀ (s : State) (ch : Byte), s.params.alphabet.WF →
    (s.eng = .ready →
      (∀ v : Fin 64, s.params.alphabet[v] = ch →
        exec (.valof ch) s = .next (s.answered .ok (BitVec.ofNat 8 v.val))) ∧
      (ch ∉ s.params.alphabet.toList → exec (.valof ch) s = .next (s.answered .notFound 0))) ∧
    RefusedWhenDead (.valof ch) s

/-- R93: CHROF answers `SYM[v]` for `v <= 63` and `NotFound` for `v >= 64`. -/
def Obligations.ChrofAnswersTheSymbol : Prop :=
  (∀ v : Byte, decode (0x020000#24 ++ v) = .ok (.chrof v.toNat)) ∧
  ∀ (s : State),
    (s.eng = .ready →
      (∀ v : Fin 64, exec (.chrof v) s = .next (s.answered .ok s.params.alphabet[v])) ∧
      (∀ v : Nat, 64 ≤ v → exec (.chrof v) s = .next (s.answered .notFound 0))) ∧
    ∀ v : Nat, RefusedWhenDead (.chrof v) s

/-- R94: VALOF and CHROF neither depend on nor change the payload, `STR` or `IDX`, and both are refused while
the engine is dead. -/
def Obligations.SymbolCommandsSeeOnlyTheTable : Prop :=
  ∀ (i : Instr), (∃ ch, i = .valof ch) ∨ (∃ v, i = .chrof v) →
    ∀ s s' : State, s.eng = s'.eng → s.params = s'.params →
      (∃ st v, exec i s = .next (s.answered st v) ∧ exec i s' = .next (s'.answered st v)) ∧
      RefusedWhenDead i s

/-! ### Transcoding -/

/-- R100, R101: CLR zeroes the payload of a live engine, changes nothing else, and cannot revive a dead
engine. -/
def Obligations.ClrZeroesThePayload : Prop :=
  decode 0x10000000 = .ok .clr ∧
  ∀ s : State,
    (s.eng = .ready → ∃ y : Payload, (∀ i : Fin 24, y[i] = 0) ∧
      exec .clr s = .next ({ s with x := y }.answered .ok 0)) ∧
    RefusedWhenDead .clr s

/-- R102 to R104: DEC accepts exactly the strings of the two patterns, with any symbol of the alphabet at the
checksum position, and loads their values; any other string is `InvalidCode` and writes nothing. -/
def Obligations.DecLoadsExactlyTheCodeStrings : Prop :=
  decode 0x11000000 = .ok .dec ∧
  ∀ s : State, s.params.alphabet.WF →
    (s.eng = .ready →
      (∀ (y : Nat → Fin 64) (c : Byte), c ∈ s.params.alphabet.toList →
        (s.str = fullCode s.params.alphabet y c →
          exec .dec s = .next ({ s with x := payloadOf y }.answered .ok 0)) ∧
        (s.str = legacyCode s.params.alphabet y c →
          exec .dec s = .next ({ s with x := payloadOf (legacyValues y) }.answered .ok 0))) ∧
      (¬ FullForm s.params.alphabet s.str → ¬ LegacyForm s.params.alphabet s.str →
        exec .dec s = .next (s.answered .invalidCode 0))) ∧
    RefusedWhenDead .dec s

/-- R105: a legacy string decodes as the same string followed by `-000000-000000`, and bytes 12 to 23 are
then 0. -/
def Obligations.LegacyStringDecodesAsItsExtension : Prop :=
  ∀ s : State, s.params.alphabet.WF → s.eng = .ready → LegacyForm s.params.alphabet s.str →
    ∃ y : Payload, (∀ i : Fin 24, 12 ≤ i.val → y[i] = 0) ∧
      exec .dec s = .next ({ s with x := y }.answered .ok 0) ∧
      let s' := { s with str := s.str ++ ascii "-000000-000000" }
      exec .dec s' = .next ({ s' with x := y }.answered .ok 0)

/-- R107, R108: ENC writes the full form of the payload with its check digit, and answers `NotFound` and
writes nothing if a byte is above 63. -/
def Obligations.EncWritesTheFullCode : Prop :=
  decode 0x12000000 = .ok .enc ∧
  ∀ s : State, s.params.alphabet.WF →
    (s.eng = .ready →
      (∀ y : Nat → Fin 64, HoldsValues s.x y →
        exec .enc s =
          .next ({ s with str := fullCode s.params.alphabet y (checkCharacter y) }.answered .ok 0)) ∧
      (OutOfAlphabet s.x → exec .enc s = .next (s.answered .notFound 0))) ∧
    RefusedWhenDead .enc s

/-- R109: ENC followed by DEC leaves every payload in the alphabet unchanged. -/
def Obligations.EncThenDecRestoresThePayload : Prop :=
  ∀ s : State, s.params.alphabet.WF → s.eng = .ready → (∀ i : Fin 24, s.x[i].toNat ≤ 63) →
    ∃ t u : State, exec .enc s = .next t ∧ exec .dec t = .next u ∧ u.x = s.x ∧
      u = ({ s with str := t.str }.answered .ok 0).answered .ok 0

/-- R110: DEC followed by ENC rewrites a full-form string at no position but 14, where the check digit of its
data then stands; a legacy string becomes its 29-character extension with the recomputed digit. -/
def Obligations.DecThenEncRecomputesTheCheckDigit : Prop :=
  ∀ (s : State) (y : Nat → Fin 64) (c : Byte), s.params.alphabet.WF → s.eng = .ready →
    c ∈ s.params.alphabet.toList →
    (s.str = fullCode s.params.alphabet y c →
      ∃ t u : State, exec .dec s = .next t ∧ exec .enc t = .next u ∧
        u.str.length = 29 ∧ (∀ j, j ≠ 14 → u.str[j]? = s.str[j]?) ∧
        u.str[14]? = some (checkCharacter y)) ∧
    (s.str = legacyCode s.params.alphabet y c →
      ∃ t u : State, exec .dec s = .next t ∧ exec .enc t = .next u ∧
        u.str = fullCode s.params.alphabet (legacyValues y) (checkCharacter (legacyValues y)))

/-! ### Checksum -/

/-- R120, R122: CSUM answers the check digit, with the digit sum as R121 writes it out, and `NotFound` if a
byte is above 63. -/
def Obligations.CsumAnswersTheCheckDigit : Prop :=
  decode 0x18000000 = .ok .csum ∧
  ∀ s : State,
    (s.eng = .ready →
      (∀ y : Nat → Fin 64, HoldsValues s.x y →
        exec .csum s = .next (s.answered .ok (BitVec.ofNat 8 (checkDigit y)))) ∧
      (OutOfAlphabet s.x → exec .csum s = .next (s.answered .notFound 0))) ∧
    RefusedWhenDead .csum s

/-- R125: for a payload in the alphabet an even term is at most 17, an odd term at most 14, `result` at most
372, the check digit at most 9, and its character is the digit `0x30 + checksum`. -/
def Obligations.ChecksumStaysInItsRange : Prop :=
  ∀ (x : Payload) (sym : Alphabet), sym.WF → (∀ i : Fin 24, x[i].toNat ≤ 63) →
    (∀ i : Fin 24, i.val % 2 = 0 → checksumTerm i x[i].toNat ≤ 17 ∧ 2 * x[i].toNat ≤ 126) ∧
    (∀ i : Fin 24, i.val % 2 = 1 → checksumTerm i x[i].toNat ≤ 14) ∧
    checksumResult x ≤ 372 ∧ checksum x ≤ 9 ∧
    charOf sym (checksum x) = some (BitVec.ofNat 8 (0x30 + checksum x))

/-- R126: the check digit is not injective in any byte: two values of one byte collide whenever their terms
agree modulo 10, as 0 and 14 do at every even position; and exchanging the last two bytes of
`(..., 63, 0)` changes nothing. -/
def Obligations.CheckDigitsCollide : Prop :=
  (∀ (x : Payload) (i : Fin 24) (b c : Byte),
    checksumTerm i b.toNat % 10 = checksumTerm i c.toNat % 10 →
      checksum (x.set i b) = checksum (x.set i c)) ∧
  (∀ (x : Payload) (i : Fin 24), i.val % 2 = 0 → checksum (x.set i 0) = checksum (x.set i 14)) ∧
  (∀ x : Payload, checksum ((x.set 22 63).set 23 0) = checksum ((x.set 22 0).set 23 63))

/-- R127: on a live engine the answer of CSUM is a function of the payload alone. -/
def Obligations.CsumDependsOnThePayloadAlone : Prop :=
  ∀ s s' : State, s.eng = .ready → s'.eng = .ready → s.x = s'.x →
    ∃ st v, exec .csum s = .next (s.answered st v) ∧ exec .csum s' = .next (s'.answered st v)

/-! ### Bit fields -/

/-- R131: SETB sets every bit of a valid range and leaves every other bit and byte; an invalid range is
`InvalidRange`. -/
def Obligations.SetbSetsExactlyTheRange : Prop :=
  (∀ a b c : Byte, decode (0x20#8 ++ a ++ b ++ c) = .ok (.setb a.toInt b.toInt c.toInt)) ∧
  ∀ (s : State) (bo bi bs : Int),
    (s.eng = .ready →
      (RangeIsValid bo bi bs → ∃ y, SetsExactly bo bi bs s.x y ∧
        exec (.setb bo bi bs) s = .next ({ s with x := y }.answered .ok 0)) ∧
      (¬ RangeIsValid bo bi bs → exec (.setb bo bi bs) s = .next (s.answered .invalidRange 0))) ∧
    RefusedWhenDead (.setb bo bi bs) s

/-- R132: CLRB clears every bit of a valid range and leaves every other bit and byte; an invalid range is
`InvalidRange`. -/
def Obligations.ClrbClearsExactlyTheRange : Prop :=
  (∀ a b c : Byte, decode (0x21#8 ++ a ++ b ++ c) = .ok (.clrb a.toInt b.toInt c.toInt)) ∧
  ∀ (s : State) (bo bi bs : Int),
    (s.eng = .ready →
      (RangeIsValid bo bi bs → ∃ y, ClearsExactly bo bi bs s.x y ∧
        exec (.clrb bo bi bs) s = .next ({ s with x := y }.answered .ok 0)) ∧
      (¬ RangeIsValid bo bi bs → exec (.clrb bo bi bs) s = .next (s.answered .invalidRange 0))) ∧
    RefusedWhenDead (.clrb bo bi bs) s

/-- R133: CHKB answers 1 iff every bit of a valid range is 1, else 0; an invalid range is `InvalidRange`; no
state is written. -/
def Obligations.ChkbTestsEveryBitOfTheRange : Prop :=
  (∀ a b c : Byte, decode (0x22#8 ++ a ++ b ++ c) = .ok (.chkb a.toInt b.toInt c.toInt)) ∧
  ∀ (s : State) (bo bi bs : Int),
    (s.eng = .ready →
      (RangeIsValid bo bi bs →
        (AllSet bo bi bs s.x → exec (.chkb bo bi bs) s = .next (s.answered .ok 1)) ∧
        (¬ AllSet bo bi bs s.x → exec (.chkb bo bi bs) s = .next (s.answered .ok 0))) ∧
      (¬ RangeIsValid bo bi bs → exec (.chkb bo bi bs) s = .next (s.answered .invalidRange 0))) ∧
    RefusedWhenDead (.chkb bo bi bs) s

/-- R135: after SETB r, CHKB r answers 1; after CLRB r, CHKB r answers 0; neither changes a bit outside r nor a
byte other than `x[byte_offset-1]`; an operation outside the bounds fails and leaves the payload. -/
def Obligations.CheckSeesWhatSetAndClearDid : Prop :=
  ∀ (s : State) (bo bi bs : Int), s.eng = .ready →
    (RangeIsValid bo bi bs →
      (∃ t, exec (.setb bo bi bs) s = .next t ∧ exec (.chkb bo bi bs) t = .next (t.answered .ok 1) ∧
        ∀ (i : Fin 24) (k : Nat), k < 8 → ¬ InRange bo bi bs i k → t.x[i].getLsbD k = s.x[i].getLsbD k) ∧
      (∃ t, exec (.clrb bo bi bs) s = .next t ∧ exec (.chkb bo bi bs) t = .next (t.answered .ok 0) ∧
        ∀ (i : Fin 24) (k : Nat), k < 8 → ¬ InRange bo bi bs i k → t.x[i].getLsbD k = s.x[i].getLsbD k)) ∧
    (¬ RangeIsValid bo bi bs → ∀ i ∈ [Instr.setb bo bi bs, .clrb bo bi bs, .chkb bo bi bs],
      exec i s = .next (s.answered .invalidRange 0))

/-- R21: `InAlphabet` holds after reset, CLR and a successful DEC; every command keeps it but a SETB or ADDO
whose range reaches bit 6 or 7, which makes it false; while it is false ENC, CSUM and BITS fail with
`NotFound`. -/
def Obligations.OnlyHighBitsLeaveTheAlphabet : Prop :=
  (∀ p : Params, ∀ j : Fin 24, (State.construct p).x[j].toNat ≤ 63) ∧
  (∀ s t : State, s.eng = .ready → exec .clr s = .next t → ¬ OutOfAlphabet t.x) ∧
  (∀ s t : State, exec .dec s = .next t → t.responses = s.responses ++ [⟨.ok, 0⟩] → ¬ OutOfAlphabet t.x) ∧
  (∀ (s t : State) (i : Instr), exec i s = .next t → ¬ OutOfAlphabet s.x → OutOfAlphabet t.x →
    (∃ bo bi bs, i = .setb bo bi bs ∧ 6 ≤ bi) ∨
    (i = .addo ∧ ∃ d ∈ s.params.catalog, d.name = s.str ∧ 6 ≤ d.bitOffset.toInt)) ∧
  (∀ (s : State) (bo bi bs : Int), s.eng = .ready → RangeIsValid bo bi bs → 6 ≤ bi →
    ∃ t, exec (.setb bo bi bs) s = .next t ∧ OutOfAlphabet t.x) ∧
  (∀ (s : State) (d : Descriptor), s.eng = .ready → s.params.catalog.WF → d ∈ s.params.catalog →
    d.name = s.str → DescriptorIsValid d → 6 ≤ d.bitOffset.toInt →
    ∃ t, exec .addo s = .next t ∧ OutOfAlphabet t.x) ∧
  (∀ s : State, s.eng = .ready → OutOfAlphabet s.x →
    ∀ i ∈ [Instr.enc, .csum, .bits], exec i s = .next (s.answered .notFound 0))

/-! ### Options -/

/-- R28: `PORD` lists every catalog index once, in presentation order. -/
def Obligations.PresentationOrderIsSortedAndStable : Prop :=
  ∀ cat : Catalog,
    (pord cat).Perm (List.range cat.length) ∧ (pord cat).Pairwise (PresentedBefore cat)

/-- R152: ADDO sets exactly the range of the option that `STR` names; an unknown name is `OptionNotFound`,
a catalogued descriptor that is not valid is `InvalidRange`. -/
def Obligations.AddoSetsTheNamedOption : Prop :=
  decode 0x28000000 = .ok .addo ∧
  ∀ s : State, s.params.catalog.WF →
    (s.eng = .ready →
      (∀ d ∈ s.params.catalog, d.name = s.str →
        (DescriptorIsValid d → ∃ y,
          SetsExactly d.byteOffset.toInt d.bitOffset.toInt d.bitSize.toInt s.x y ∧
          exec .addo s = .next ({ s with x := y }.answered .ok 0)) ∧
        (¬ DescriptorIsValid d → exec .addo s = .next (s.answered .invalidRange 0))) ∧
      ((∀ d ∈ s.params.catalog, d.name ≠ s.str) →
        exec .addo s = .next (s.answered .optionNotFound 0))) ∧
    RefusedWhenDead .addo s

/-- R153: REMO clears exactly the range of the option that `STR` names; an unknown name is `OptionNotFound`,
a catalogued descriptor that is not valid is `InvalidRange`. -/
def Obligations.RemoClearsTheNamedOption : Prop :=
  decode 0x29000000 = .ok .remo ∧
  ∀ s : State, s.params.catalog.WF →
    (s.eng = .ready →
      (∀ d ∈ s.params.catalog, d.name = s.str →
        (DescriptorIsValid d → ∃ y,
          ClearsExactly d.byteOffset.toInt d.bitOffset.toInt d.bitSize.toInt s.x y ∧
          exec .remo s = .next ({ s with x := y }.answered .ok 0)) ∧
        (¬ DescriptorIsValid d → exec .remo s = .next (s.answered .invalidRange 0))) ∧
      ((∀ d ∈ s.params.catalog, d.name ≠ s.str) →
        exec .remo s = .next (s.answered .optionNotFound 0))) ∧
    RefusedWhenDead .remo s

/-- R156: with a catalog of valid descriptors ENOPT writes to `IDX` exactly the indices of the enabled
entries, in presentation order. -/
def Obligations.EnoptListsTheEnabledOptions : Prop :=
  decode 0x2A000000 = .ok .enopt ∧
  ∀ s : State,
    (s.eng = .ready →
      ((∀ d ∈ s.params.catalog, DescriptorIsValid d) → ∃ ks : List Nat,
        exec .enopt s = .next ({ s with idx := indexWords ks }.answered .ok 0) ∧
        ks.Pairwise (PresentedBefore s.params.catalog) ∧
        ∀ k, k ∈ ks ↔ ∃ d, s.params.catalog[k]? = some d ∧ OptionEnabled s.x d) ∧
      ((∃ d ∈ s.params.catalog, ¬ DescriptorIsValid d) →
        exec .enopt s = .next (s.answered .invalidRange 0))) ∧
    RefusedWhenDead .enopt s

/-- R158: with a catalog of valid descriptors AVOPT writes to `IDX` exactly the indices of the entries that
are not enabled, in presentation order. -/
def Obligations.AvoptListsTheOtherOptions : Prop :=
  decode 0x2B000000 = .ok .avopt ∧
  ∀ s : State,
    (s.eng = .ready →
      ((∀ d ∈ s.params.catalog, DescriptorIsValid d) → ∃ ks : List Nat,
        exec .avopt s = .next ({ s with idx := indexWords ks }.answered .ok 0) ∧
        ks.Pairwise (PresentedBefore s.params.catalog) ∧
        ∀ k, k ∈ ks ↔ ∃ d, s.params.catalog[k]? = some d ∧ ¬ OptionEnabled s.x d) ∧
      ((∃ d ∈ s.params.catalog, ¬ DescriptorIsValid d) →
        exec .avopt s = .next (s.answered .invalidRange 0))) ∧
    RefusedWhenDead .avopt s

/-- R157: if any catalog entry is not valid, ENOPT and AVOPT fail with `InvalidRange` and leave `IDX` and
`ICNT` unchanged, whatever the payload. -/
def Obligations.BadDescriptorStopsTheEnumeration : Prop :=
  ∀ (s : State) (d : Descriptor), s.eng = .ready → d ∈ s.params.catalog → ¬ DescriptorIsValid d →
    ∀ i ∈ [Instr.enopt, .avopt], exec i s = .next (s.answered .invalidRange 0)

/-- R159: for any payload and a catalog of valid entries the lists of ENOPT and AVOPT have no index in common
and together hold every index exactly once, and each is a subsequence of `PORD`. -/
def Obligations.EnabledAndAvailablePartitionTheCatalog : Prop :=
  ∀ s : State, s.eng = .ready → s.params.catalog.WF →
    (∀ d ∈ s.params.catalog, DescriptorIsValid d) →
    ∃ t u : State, exec .enopt s = .next t ∧ exec .avopt s = .next u ∧
      (t.idx ++ u.idx).Perm (indexWords (List.range s.params.catalog.length)) ∧
      (t.idx ++ u.idx).Nodup ∧
      t.idx.Sublist (indexWords (pord s.params.catalog)) ∧
      u.idx.Sublist (indexWords (pord s.params.catalog))

/-! ### Bit display -/

/-- R170 to R172: BITS writes the 232 characters of the bit display and leaves the payload; a payload out of
the alphabet is `NotFound`. -/
def Obligations.BitsWritesTheDisplay : Prop :=
  decode 0x30000000 = .ok .bits ∧
  ∀ s : State, s.params.alphabet.WF →
    (s.eng = .ready →
      (∀ y : Nat → Fin 64, HoldsValues s.x y → ∃ out : List Byte, IsBitDisplay y out ∧
        exec .bits s = .next ({ s with str := out }.answered .ok 0)) ∧
      (OutOfAlphabet s.x → exec .bits s = .next (s.answered .notFound 0))) ∧
    RefusedWhenDead .bits s

/-! ### Errors, responses and frames -/

/-- R23, R181: while `ENG` is not Ready every legal command fails with the matching catalog status and writes
nothing. -/
def Obligations.DeadEngineAnswersOnlyTheCatalogStatus : Prop :=
  ∀ (i : Instr) (s : State), RefusedWhenDead i s

/-- R184: the first error that applies is the one reported: an illegal word before anything else, then the dead
engine, then for ADDO and REMO the unknown name before the bad descriptor. -/
def Obligations.TheFirstErrorIsReported : Prop :=
  ∀ (s : State) (w : CommandWord) (rest : List Line), s.input = .cmd w :: rest →
    ((¬ ∃ i, decode w = .ok i) → step s = .next ({ s with input := rest }.answered .illegalCommand 0)) ∧
    ∀ i : Instr, decode w = .ok i →
      (s.eng = .deadUnavailable → step s = .next ({ s with input := rest }.answered .catalogUnavailable 0)) ∧
      (s.eng = .deadMalformed → step s = .next ({ s with input := rest }.answered .catalogMalformed 0)) ∧
      (s.eng = .ready → i = .addo ∨ i = .remo →
        ((∀ d ∈ s.params.catalog, d.name ≠ s.str) →
          step s = .next ({ s with input := rest }.answered .optionNotFound 0)) ∧
        (s.params.catalog.WF → ∀ d ∈ s.params.catalog, d.name = s.str → ¬ DescriptorIsValid d →
          step s = .next ({ s with input := rest }.answered .invalidRange 0)))

/-- R180, the column `returned by`: a command of a live engine fails only with a status of its own, and the
catalog statuses come from the dead engine alone. -/
def Obligations.EachStatusComesFromItsCommands : Prop :=
  ∀ (i : Instr) (s t : State) (r : Response), exec i s = .next t → t.responses = s.responses ++ [r] →
    (s.eng = .ready ∧ (r.status = .ok ∨ r.status ∈ ownStatuses i)) ∨
    (s.eng = .deadUnavailable ∧ r.status = .catalogUnavailable) ∨
    (s.eng = .deadMalformed ∧ r.status = .catalogMalformed)

/-- R65: every command completes and delivers exactly one response; its value is 0 whenever the status is not
OK and for every command that returns no scalar. -/
def Obligations.EveryCommandDeliversOneResponse : Prop :=
  ∀ (i : Instr) (s : State), ∃ t st v, exec i s = .next t ∧
    t.responses = s.responses ++ [⟨st, v⟩] ∧
    (st ≠ .ok → v = 0) ∧
    (v ≠ 0 → (∃ ch, i = .valof ch) ∨ (∃ c, i = .chrof c) ∨ i = .csum ∨ ∃ bo bi bs, i = .chkb bo bi bs) ∧
    (st = .ok → ∀ ch, i = .valof ch → v.toNat ≤ 63) ∧
    (i = .csum → v.toNat ≤ 9) ∧
    (∀ bo bi bs, i = .chkb bo bi bs → v.toNat ≤ 1)

/-- R185: a command word whose response is not OK writes no state at all; the line is taken and `(status, 0)`
delivered. -/
def Obligations.FailingCommandsWriteNothing : Prop :=
  ∀ (s t : State) (w : CommandWord) (rest : List Line) (r : Response),
    s.input = .cmd w :: rest → step s = .next t → t.responses = s.responses ++ [r] → r.status ≠ .ok →
      t = { s with input := rest }.answered r.status 0

/-- Frames, from the rules' "State written" (R20, R24, R25, R49): no command writes `ENG` or a parameter; only
CLR, DEC, SETB, CLRB, ADDO and REMO write the payload, only ENC and BITS the string, only ENOPT and AVOPT the
index list. -/
def Obligations.CommandsWriteOnlyTheirOwnState : Prop :=
  ∀ (i : Instr) (s t : State), exec i s = .next t →
    t.eng = s.eng ∧ t.params = s.params ∧ t.input = s.input ∧
    (t.x ≠ s.x → i = .clr ∨ i = .dec ∨ i = .addo ∨ i = .remo ∨
      (∃ bo bi bs, i = .setb bo bi bs) ∨ ∃ bo bi bs, i = .clrb bo bi bs) ∧
    (t.str ≠ s.str → i = .enc ∨ i = .bits) ∧
    (t.idx ≠ s.idx → i = .enopt ∨ i = .avopt)

/-- R49: a command issued twice in a row leaves the state of issuing it once, and gets the same response. -/
def Obligations.RepeatingACommandChangesNothing : Prop :=
  ∀ (i : Instr) (s t : State), exec i s = .next t →
    ∃ r : Response, t.responses = s.responses ++ [r] ∧ exec i t = .next (t.answered r.status r.value)

/-! ### Construction and assembly -/

/-- R211: construct-from-string is reset, `.str` and DEC: a code string of either form gives a live engine with
its values; a bad string `InvalidCode` and a live default engine; a failed catalog load the catalog status, the string not
examined. -/
def Obligations.NewConstructsFromTheString : Prop :=
  ∀ (s : State) (text : List Byte) (rest : List Line), s.params.alphabet.WF → text.length ≤ 232 →
    s.input = newFrom text ++ rest →
    ∃ t, RunsTo 3 s t ∧ t.input = rest ∧ t.str = text ∧ t.idx = [] ∧ t.params = s.params ∧
      (s.params.catLoad = .ok → t.eng = .ready ∧
        (∀ y c, c ∈ s.params.alphabet.toList → text = fullCode s.params.alphabet y c →
          t.x = payloadOf y ∧ t.responses = s.responses ++ [⟨.ok, 0⟩]) ∧
        (∀ y c, c ∈ s.params.alphabet.toList → text = legacyCode s.params.alphabet y c →
          t.x = payloadOf (legacyValues y) ∧ t.responses = s.responses ++ [⟨.ok, 0⟩]) ∧
        (¬ FullForm s.params.alphabet text → ¬ LegacyForm s.params.alphabet text →
          (∀ i : Fin 24, t.x[i] = 0) ∧ t.responses = s.responses ++ [⟨.invalidCode, 0⟩])) ∧
      (s.params.catLoad = .unavailable →
        (∀ i : Fin 24, t.x[i] = 0) ∧ t.responses = s.responses ++ [⟨.catalogUnavailable, 0⟩]) ∧
      (s.params.catLoad = .malformed →
        (∀ i : Fin 24, t.x[i] = 0) ∧ t.responses = s.responses ++ [⟨.catalogMalformed, 0⟩])

/-- The expansions of R74 and the line `.str` of R73, for every text without a double quote. That a `;` inside
quotes is text, that a text ends at the next double quote and that a space separates is the model's choice
(log 6, DESIGN CHOICE); the expansions themselves are R74's. -/
def Obligations.PseudoCommandsExpandAsListed : Prop :=
  ∀ text : List Byte, 0x22 ∉ text →
    let quoted := [0x22] ++ text ++ [0x22]
    assembleLine (ascii ".str " ++ quoted) = some [.str text] ∧
    assembleLine (ascii "NEW " ++ quoted) = some [.reset, .str text, .cmd 0x11000000] ∧
    assembleLine (ascii "OPT+ " ++ quoted) = some [.str text, .cmd 0x28000000] ∧
    assembleLine (ascii "OPT- " ++ quoted) = some [.str text, .cmd 0x29000000] ∧
    assembleLine (ascii "NEW") = some [.reset] ∧ assembleLine (ascii ".reset") = some [.reset]
end

