-- ==== Sys2Proof/Laws/State.lean ====
section
/-! SUPPORT. The state operations, field by field, true by unfolding once; later proofs cite these. -/

namespace Sys2Proof.Laws

open Sys2Proof.Machine

section Deliver
variable (s : State) (st : Status) (v : Byte)

@[simp] theorem deliver_x : (s.deliver st v).x = s.x := rfl
@[simp] theorem deliver_eng : (s.deliver st v).eng = s.eng := rfl
@[simp] theorem deliver_str : (s.deliver st v).str = s.str := rfl
@[simp] theorem deliver_idx : (s.deliver st v).idx = s.idx := rfl
@[simp] theorem deliver_params : (s.deliver st v).params = s.params := rfl
@[simp] theorem deliver_input : (s.deliver st v).input = s.input := rfl
@[simp] theorem deliver_responses : (s.deliver st v).responses = s.responses ++ [⟨st, v⟩] := rfl

@[simp] theorem answered_x : (s.answered st v).x = s.x := rfl
@[simp] theorem answered_eng : (s.answered st v).eng = s.eng := rfl
@[simp] theorem answered_str : (s.answered st v).str = s.str := rfl
@[simp] theorem answered_idx : (s.answered st v).idx = s.idx := rfl
@[simp] theorem answered_params : (s.answered st v).params = s.params := rfl
@[simp] theorem answered_input : (s.answered st v).input = s.input := rfl
@[simp] theorem answered_responses : (s.answered st v).responses = s.responses ++ [⟨st, v⟩] := rfl

/-- The model's delivery is the claims' `answered`. -/
@[simp] theorem deliver_eq_answered : s.deliver st v = s.answered st v := rfl
/-- An error answers its status with value 0 and writes nothing (R185). -/
@[simp] theorem raise_eq_answered : s.raise st = s.answered st 0 := rfl

end Deliver

section Reset
variable (s : State) (p : Params)

@[simp] theorem construct_x : (State.construct p).x = Vector.replicate 24 0 := rfl
@[simp] theorem construct_eng : (State.construct p).eng = Eng.ofLoad p.catLoad := rfl
@[simp] theorem construct_str : (State.construct p).str = [] := rfl
@[simp] theorem construct_idx : (State.construct p).idx = [] := rfl
@[simp] theorem construct_params : (State.construct p).params = p := rfl
@[simp] theorem construct_input : (State.construct p).input = [] := rfl
@[simp] theorem construct_responses : (State.construct p).responses = [] := rfl

@[simp] theorem applyReset_x : s.applyReset.x = Vector.replicate 24 0 := rfl
@[simp] theorem applyReset_eng : s.applyReset.eng = Eng.ofLoad s.params.catLoad := rfl
@[simp] theorem applyReset_str : s.applyReset.str = [] := rfl
@[simp] theorem applyReset_idx : s.applyReset.idx = [] := rfl
@[simp] theorem applyReset_params : s.applyReset.params = s.params := rfl
@[simp] theorem applyReset_input : s.applyReset.input = s.input := rfl
@[simp] theorem applyReset_responses : s.applyReset.responses = s.responses := rfl

end Reset

section WithFetchWord
variable (s : State) (nbits w : Nat)

@[simp] theorem withFetchWord_input :
    (s.withFetchWord nbits w).input = .cmd (tableWord nbits w) :: s.input := rfl

end WithFetchWord

end Sys2Proof.Laws
end

