-- ==== Sys2Proof/Laws/Ops.lean ====
section
/-! SUPPORT. What the shared operations can do, said once. -/

namespace Sys2Proof.Laws

open Sys2Proof.Machine

@[simp] theorem finish_error (s : State) (e : Status) : s.finish (.error e) = s.answered e 0 := rfl
@[simp] theorem finish_ok (s s' : State) (v : Byte) : s.finish (.ok (s', v)) = s'.answered .ok v := rfl

/-- A command of a live engine ends as its own rule says. -/
theorem command_ready {s : State} (h : s.eng = .ready) (body : Body) :
    s.command body = .next (s.finish body) := by
  simp [State.command, h]

/-- A command of a dead engine answers the catalog status, whatever its rule (R181). -/
theorem command_unavailable {s : State} (h : s.eng = .deadUnavailable) (body : Body) :
    s.command body = .next (s.answered .catalogUnavailable 0) := by
  simp [State.command, h]

theorem command_malformed {s : State} (h : s.eng = .deadMalformed) (body : Body) :
    s.command body = .next (s.answered .catalogMalformed 0) := by
  simp [State.command, h]

/-- Everything a command can do: finish its rule, or be turned away by the dead engine. -/
theorem command_cases (s : State) (body : Body) :
    (s.eng = .ready ∧ s.command body = .next (s.finish body)) ∨
    (∃ st, st ≠ .ok ∧ s.eng ≠ .ready ∧ s.command body = .next (s.answered st 0)) := by
  cases h : s.eng with
  | ready => exact .inl ⟨rfl, command_ready h body⟩
  | deadUnavailable => exact .inr ⟨_, by decide, by decide, command_unavailable h body⟩
  | deadMalformed => exact .inr ⟨_, by decide, by decide, command_malformed h body⟩

/-- Every command is one call of `State.command`, so its outcome is a next state that `command_cases`
describes. `body i s` is what the rule of `i` ends with in `s`. -/
def body : Instr → State → Body
  | .valof ch, s =>
    match valueOf s.params.alphabet ch with
    | none => .error .notFound
    | some v => .ok (s, BitVec.ofNat 8 v)
  | .chrof v, s =>
    match charOf s.params.alphabet v with
    | none => .error .notFound
    | some ch => .ok (s, ch)
  | .clr, s => .ok ({ s with x := Vector.replicate 24 0 }, 0)
  | .dec, s =>
    match decodeString s.params.alphabet s.str with
    | none => .error .invalidCode
    | some x => .ok ({ s with x := x }, 0)
  | .enc, s =>
    if h : InAlphabet s.x then .ok ({ s with str := encodeString s.params.alphabet s.x h }, 0)
    else .error .notFound
  | .csum, s => if InAlphabet s.x then .ok (s, BitVec.ofNat 8 (checksum s.x)) else .error .notFound
  | .setb bo bi bs, s => s.editRange (bitRange? bo bi bs) setBits
  | .clrb bo bi bs, s => s.editRange (bitRange? bo bi bs) clearBits
  | .chkb bo bi bs, s =>
    match bitRange? bo bi bs with
    | none => .error .invalidRange
    | some r => .ok (s, if checkBits s.x r then 1 else 0)
  | .addo, s => s.editOption setBits
  | .remo, s => s.editOption clearBits
  | .enopt, s => s.enumerate fun d => enabled s.x d
  | .avopt, s => s.enumerate fun d => !enabled s.x d
  | .bits, s =>
    if h : InAlphabet s.x then
      match displayTokens s.params.alphabet (encodeString s.params.alphabet s.x h) with
      | none => .error .notFound
      | some tokens => .ok ({ s with str := joinTokens tokens }, 0)
    else .error .notFound

theorem exec_eq_command (i : Instr) (s : State) : exec i s = s.command (body i s) := by
  cases i <;> rfl

theorem exec_ready {s : State} (h : s.eng = .ready) (i : Instr) :
    exec i s = .next (s.finish (body i s)) := by
  rw [exec_eq_command, command_ready h]

/-- The one error of the option lookup (R152). -/
theorem namedOption_error {s : State} {e : Status} (h : s.namedOption = .error e) : e = .optionNotFound := by
  unfold State.namedOption namedDescriptor at h
  split at h <;> simp_all

/-- An edit through a range fails with `InvalidRange`, or writes the payload alone (R131, R132). -/
theorem editRange_cases (s : State) (range : Option BitRange) (edit : Payload → BitRange → Payload) :
    (range = none ∧ s.editRange range edit = .error .invalidRange) ∨
    (∃ r, range = some r ∧ s.editRange range edit = .ok ({ s with x := edit s.x r }, 0)) := by
  cases range with
  | none => exact .inl ⟨rfl, rfl⟩
  | some r => exact .inr ⟨r, rfl, rfl⟩

/-- An edit through an option fails with `OptionNotFound` or `InvalidRange`, or writes the payload alone
(R152, R153). -/
theorem editOption_cases (s : State) (edit : Payload → BitRange → Payload) :
    (s.namedOption = .error .optionNotFound ∧ s.editOption edit = .error .optionNotFound) ∨
    (∃ d, s.namedOption = .ok d ∧ descriptorRange? d = none ∧ s.editOption edit = .error .invalidRange) ∨
    (∃ d r, s.namedOption = .ok d ∧ descriptorRange? d = some r ∧
      s.editOption edit = .ok ({ s with x := edit s.x r }, 0)) := by
  unfold State.editOption
  cases h : s.namedOption with
  | error e =>
    have he := namedOption_error h
    subst he
    exact .inl ⟨rfl, rfl⟩
  | ok d =>
    rcases editRange_cases s (descriptorRange? d) edit with ⟨hr, h⟩ | ⟨r, hr, h⟩
    · exact .inr (.inl ⟨d, rfl, hr, h⟩)
    · exact .inr (.inr ⟨d, r, rfl, hr, h⟩)

/-- An enumeration fails with `InvalidRange`, or writes the index list alone (R156 to R158). -/
theorem enumerate_cases (s : State) (select : Descriptor → Bool) :
    (allValid s.params.catalog = false ∧ s.enumerate select = .error .invalidRange) ∨
    (allValid s.params.catalog = true ∧
      s.enumerate select = .ok ({ s with idx := selectIndices s.params.catalog select }, 0)) := by
  unfold State.enumerate
  cases h : allValid s.params.catalog <;> simp

/-- The outcomes of a command rule: a failing status, or a success that leaves `ENG`, the parameters, the
host's lines and the delivered responses alone. -/
theorem body_cases (i : Instr) (s : State) :
    (∃ e, e ≠ .ok ∧ body i s = .error e) ∨
    (∃ s' v, body i s = .ok (s', v) ∧ s'.eng = s.eng ∧ s'.params = s.params ∧ s'.input = s.input ∧
      s'.responses = s.responses) := by
  cases i with
  | addo => rcases editOption_cases s setBits with ⟨-, h⟩ | ⟨d, -, -, h⟩ | ⟨d, r, -, -, h⟩ <;> simp [body, h]
  | remo => rcases editOption_cases s clearBits with ⟨-, h⟩ | ⟨d, -, -, h⟩ | ⟨d, r, -, -, h⟩ <;> simp [body, h]
  | _ =>
    simp only [body, State.editRange, State.enumerate]
    (try split) <;> (try split) <;> simp_all

end Sys2Proof.Laws
end

