-- ==== Sys2Proof/Laws/Step.lean ====
section
/-! SUPPORT. What a command, a step and a run can do, said once. -/

namespace Sys2Proof.Laws

open Sys2Proof.Machine

/-- Everything a command can do: fail and write nothing, or succeed with one response and leave `ENG`, the
parameters and the host's lines alone. -/
theorem exec_cases (i : Instr) (s : State) :
    (∃ e, e ≠ .ok ∧ exec i s = .next (s.answered e 0)) ∨
    (∃ s' v, s.eng = .ready ∧ body i s = .ok (s', v) ∧ exec i s = .next (s'.answered .ok v) ∧
      s'.eng = s.eng ∧ s'.params = s.params ∧ s'.input = s.input ∧ s'.responses = s.responses) := by
  rw [exec_eq_command]
  rcases command_cases s (body i s) with ⟨hr, h⟩ | ⟨st, hst, -, h⟩
  · rcases body_cases i s with ⟨e, he, hb⟩ | ⟨s', v, hb, hrest⟩
    · exact .inl ⟨e, he, by rw [h, hb, finish_error]⟩
    · exact .inr ⟨s', v, hr, hb, by rw [h, hb, finish_ok], hrest⟩
  · exact .inl ⟨st, hst, h⟩

/-- Everything a step can do, one case for each kind of line. -/
theorem step_cases {s t : State} (h : step s = .next t) :
    (s.input = [] ∧ t = s) ∨
    (∃ rest, s.input = .reset :: rest ∧ t = State.applyReset { s with input := rest }) ∨
    (∃ text rest, s.input = .str text :: rest ∧ text.length ≤ Config.strCapacity ∧
      t = { s with input := rest, str := text }) ∨
    (∃ w rest e, s.input = .cmd w :: rest ∧ decode w = .error e ∧
      t = { s with input := rest }.answered .illegalCommand 0) ∨
    (∃ w rest i, s.input = .cmd w :: rest ∧ decode w = .ok i ∧ exec i { s with input := rest } = .next t) := by
  unfold step at h
  split at h
  · rename_i hs
    cases h
    exact .inl ⟨hs, rfl⟩
  · rename_i rest hs
    cases h
    exact .inr (.inl ⟨rest, hs, rfl⟩)
  · rename_i text rest hs
    unfold State.hostWriteStr at h
    split at h
    · rename_i hl
      cases h
      exact .inr (.inr (.inl ⟨text, rest, hs, hl, rfl⟩))
    · cases h
  · rename_i w rest hs
    split at h
    · rename_i e hd
      cases h
      exact .inr (.inr (.inr (.inl ⟨w, rest, e, hs, hd, rfl⟩)))
    · rename_i i hd
      exact .inr (.inr (.inr (.inr ⟨w, rest, i, hs, hd, h⟩)))

/-- A step on a legal line completes: it takes the line, keeps the responses and adds one for a command
word. -/
theorem step_takes_line {s : State} {l : Line} {rest : List Line} (hs : s.input = l :: rest) (hl : l.wf = true) :
    ∃ t rs, step s = .next t ∧ t.input = rest ∧ t.responses = s.responses ++ rs ∧
      rs.length = commandCount [l] := by
  cases l with
  | reset => exact ⟨State.applyReset { s with input := rest }, [], by simp [step, hs], rfl, by simp, rfl⟩
  | str text =>
    refine ⟨{ s with input := rest, str := text }, [], ?_, rfl, by simp, rfl⟩
    have hl : text.length ≤ Config.strCapacity := by simpa [Line.wf] using hl
    simp [step, hs, State.hostWriteStr, hl]
  | cmd w =>
    cases hd : decode w with
    | error e => exact ⟨State.illegal { s with input := rest }, [⟨.illegalCommand, 0⟩], by simp [step, hs, hd], rfl, rfl, rfl⟩
    | ok i =>
      rcases exec_cases i { s with input := rest } with ⟨e, -, h⟩ | ⟨s', v, -, -, h, -, -, hin, hresp⟩
      · exact ⟨State.answered { s with input := rest } e 0, [⟨e, 0⟩], by simpa [step, hs, hd] using h, rfl, rfl, rfl⟩
      · exact ⟨s'.answered .ok v, [⟨.ok, v⟩], by simpa [step, hs, hd] using h, hin, by simp [hresp], rfl⟩

@[simp] theorem runsTo_zero {s t : State} : RunsTo 0 s t ↔ s = t :=
  ⟨fun h => Host.Outcome.next.inj h, fun h => congrArg Host.Outcome.next h⟩

/-- One more step at the front of a run. -/
theorem runsTo_succ {n : Nat} {s t u : State} (h : step s = .next t) (hr : RunsTo n t u) : RunsTo (n + 1) s u := by
  have hrun : Host.Core.run core (n + 1) s = Host.Core.run core n t := by
    simp [Host.Core.run, core, h]
  exact hrun.trans hr

end Sys2Proof.Laws
end

