-- ==== Sys2Proof/Laws/SymbolTable.lean ====
section
/-! SUPPORT. The Symbol Table functions over a legal alphabet. -/

namespace Sys2Proof.Laws

open Sys2Proof.Machine

/-- A value found is in range and names the character (R90). -/
theorem valueOf_some {sym : Alphabet} {ch : Byte} {v : Nat} (h : valueOf sym ch = some v) :
    ∃ hv : v < 64, sym[v] = ch := by
  unfold valueOf at h
  rw [List.findIdx?_eq_some_iff_getElem] at h
  obtain ⟨hv, heq, -⟩ := h
  have hv' : v < 64 := by simpa using hv
  exact ⟨hv', by simpa using heq⟩

/-- A character is not found exactly when it is no symbol (R90). -/
theorem valueOf_eq_none {sym : Alphabet} {ch : Byte} : valueOf sym ch = none ↔ ch ∉ sym.toList := by
  unfold valueOf
  rw [List.findIdx?_eq_none_iff]
  constructor
  · intro h hm
    simpa using h ch hm
  · intro h c hc
    by_contra hne
    have heq : c = ch := by simpa using hne
    exact h (heq ▸ hc)

/-- Distinct symbols have distinct values (R26). -/
theorem symbol_inj {sym : Alphabet} (hs : sym.toList.Nodup) {u v : Nat} (hu : u < 64) (hv : v < 64)
    (h : sym[u] = sym[v]) : u = v := by
  have hu' : u < sym.toList.length := by simpa using hu
  have hv' : v < sym.toList.length := by simpa using hv
  exact (hs.getElem_inj_iff (hi := hu') (hj := hv')).mp (by simpa using h)

/-- `value_of(char_of(v)) = v` (R91). -/
theorem valueOf_symbol {sym : Alphabet} (hs : sym.toList.Nodup) {v : Nat} (hv : v < 64) :
    valueOf sym sym[v] = some v := by
  cases h : valueOf sym sym[v] with
  | none => exact absurd (by simp) (valueOf_eq_none.mp h)
  | some u =>
    obtain ⟨hu, heq⟩ := valueOf_some h
    rw [symbol_inj hs hu hv heq]

theorem mem_alphabet_iff {sym : Alphabet} {ch : Byte} : ch ∈ sym.toList ↔ ∃ v : Fin 64, sym[v] = ch := by
  rw [List.mem_iff_getElem]
  constructor
  · rintro ⟨v, hv, h⟩
    exact ⟨⟨v, by simpa using hv⟩, by simpa using h⟩
  · rintro ⟨v, h⟩
    exact ⟨v, by simp, by simpa using h⟩

theorem valueOf_isSome {sym : Alphabet} {ch : Byte} : (valueOf sym ch).isSome = true ↔ ch ∈ sym.toList := by
  rw [Option.isSome_iff_ne_none, Ne, valueOf_eq_none, not_not]

/-- `DASH` is no symbol (R26, R67). -/
theorem dash_not_mem {sym : Alphabet} (h : sym.WF) : Config.dash ∉ sym.toList :=
  fun hm => (h.2.2 _ hm).2.2 rfl

theorem symbol_ne_dash {sym : Alphabet} (h : sym.WF) (v : Fin 64) : sym[v] ≠ Config.dash :=
  fun he => dash_not_mem h (mem_alphabet_iff.mpr ⟨v, he⟩)

/-- The digits are the first ten symbols (R26). -/
theorem symbol_digit {sym : Alphabet} (h : sym.WF) {d : Nat} (hd : d < 10) :
    sym[d]'(by omega) = BitVec.ofNat 8 (0x30 + d) := by
  have h2 : (sym.toList.take 10)[d]? = Config.digitSymbols[d]? := by rw [h.2.1]
  rw [List.getElem?_take_of_lt hd, List.getElem?_eq_getElem (by simp; omega)] at h2
  have h3 : Config.digitSymbols[d]? = some (BitVec.ofNat 8 (0x30 + d)) := by
    clear h2
    revert d
    decide
  rw [h3] at h2
  simpa using h2

@[simp] theorem charOf_lt {sym : Alphabet} {v : Nat} (h : v < 64) : charOf sym v = some sym[v] := by
  simp [charOf, h]

theorem charOf_ge {sym : Alphabet} {v : Nat} (h : 64 ≤ v) : charOf sym v = none := by
  simp [charOf, h]

end Sys2Proof.Laws
end

