-- ==== Sys2Proof/Laws/Checksum.lean ====
section
/-! SUPPORT. The check digit: the decimal digit sum written out, and the model's sum over the payload. -/

namespace Sys2Proof.Laws

open Sys2Proof.Machine

/-- `digsum` as R121 writes it out, below 1000. -/
theorem digsum_eq_digitSum {n : Nat} (h : n < 1000) : digsum n = digitSum n := by
  unfold digsum digitSum
  rcases Nat.eq_zero_or_pos n with rfl | h0
  · rfl
  rw [Nat.digits_def' (by decide) h0]
  rcases Nat.eq_zero_or_pos (n / 10) with h1 | h1
  · simp [h1]; omega
  rw [Nat.digits_def' (by decide) h1]
  rcases Nat.eq_zero_or_pos (n / 10 / 10) with h2 | h2
  · simp [h2]; omega
  rw [Nat.digits_def' (by decide) h2]
  have h3 : n / 10 / 10 / 10 = 0 := by omega
  simp [h3]; omega

/-- The term bounds of R125. -/
theorem digsum_le_14 {b : Nat} (h : b ≤ 63) : digsum b ≤ 14 := by
  rw [digsum_eq_digitSum (by omega)]; unfold digitSum; omega

theorem digsum_double_le_17 {b : Nat} (h : b ≤ 63) : digsum (2 * b) ≤ 17 := by
  rw [digsum_eq_digitSum (by omega)]; unfold digitSum; omega

/-- `result` as a sum over the positions. -/
theorem checksumResult_eq_sum (x : Payload) :
    checksumResult x = ∑ i : Fin 24, checksumTerm i x[i].toNat := by
  unfold checksumResult
  rw [List.sum_ofFn]

/-- The model's `result` is the one claims are stated with. -/
theorem checksumResult_eq_luhnResult {x : Payload} {y : Nat → Fin 64} (h : HoldsValues x y) :
    checksumResult x = luhnResult y := by
  rw [checksumResult_eq_sum, luhnResult, Finset.sum_range]
  refine Finset.sum_congr rfl fun i _ => ?_
  have hv := (y i).isLt
  rw [checksumTerm, h i, digsum_eq_digitSum (by omega), digsum_eq_digitSum (by omega)]

theorem checksum_eq_checkDigit {x : Payload} {y : Nat → Fin 64} (h : HoldsValues x y) :
    checksum x = checkDigit y := by
  rw [checksum, checkDigit, checksumResult_eq_luhnResult h]

theorem inAlphabet_of_holdsValues {x : Payload} {y : Nat → Fin 64} (h : HoldsValues x y) : InAlphabet x := by
  intro i
  have := (y i).isLt
  rw [h i]
  omega

theorem not_inAlphabet_iff {x : Payload} : ¬ InAlphabet x ↔ OutOfAlphabet x := by
  simp [InAlphabet, OutOfAlphabet]

/-- The values a payload in the alphabet holds. -/
theorem holdsValues_of_inAlphabet {x : Payload} (h : InAlphabet x) : ∃ y, HoldsValues x y := by
  refine ⟨fun j => if hj : j < 24 then ⟨x[j].toNat, Nat.lt_succ_of_le (h ⟨j, hj⟩)⟩ else 0, fun j => ?_⟩
  simp

theorem holdsValues_payloadOf (y : Nat → Fin 64) : HoldsValues (payloadOf y) y := by
  intro j
  have := (y j).isLt
  simp [payloadOf]
  omega

end Sys2Proof.Laws
end

