-- ==== Sys2Proof/Laws/Transcoding.lean ====
section
/-! SUPPORT. Code strings: what the decoder accepts and what the encoder writes. -/

namespace Sys2Proof.Laws

open Sys2Proof.Machine

/-- One position of a string that matches a form (R68, R69). -/
theorem positionMatches_iff {sym : Alphabet} {dashes : List Nat} {s : List Byte} {j : Nat} :
    positionMatches sym dashes s j = true ↔
      ∃ ch, s[j]? = some ch ∧ (j ∈ dashes → ch = Config.dash) ∧ (j ∉ dashes → ch ∈ sym.toList) := by
  unfold positionMatches
  cases h : s[j]? with
  | none => simp
  | some ch =>
    by_cases hj : j ∈ dashes
    · simp [hj]
    · have hv := valueOf_isSome (sym := sym) (ch := ch)
      simp [hj, hv]

theorem matchesForm_iff {sym : Alphabet} {n : Nat} {dashes : List Nat} {s : List Byte} :
    matchesForm sym n dashes s = true ↔
      s.length = n ∧ ∀ j < n, ∃ ch, s[j]? = some ch ∧ (j ∈ dashes → ch = Config.dash) ∧
        (j ∉ dashes → ch ∈ sym.toList) := by
  simp [matchesForm, positionMatches_iff]

/-- After the pattern check every symbol position has a value (R104). -/
theorem matchesForm_symbol {sym : Alphabet} {n : Nat} {dashes : List Nat} {s : List Byte}
    (h : matchesForm sym n dashes s = true) {j : Nat} (hj : j < n) (hd : j ∉ dashes) :
    ∃ ch v, s[j]? = some ch ∧ valueOf sym ch = some v := by
  obtain ⟨ch, hs, -, hm⟩ := (matchesForm_iff.mp h).2 j hj
  obtain ⟨v, hv⟩ := Option.isSome_iff_exists.mp (valueOf_isSome.mpr (hm hd))
  exact ⟨ch, v, hs, hv⟩

/-- The value of a symbol character. -/
theorem symbolAt_symbol {sym : Alphabet} (h : sym.toList.Nodup) {s : List Byte} {k : Nat} {v : Fin 64}
    (hs : s[k]? = some sym[v]) : symbolAt sym s k = BitVec.ofNat 8 v.val := by
  have hv : valueOf sym sym[v] = some v.val := valueOf_symbol h v.isLt
  unfold symbolAt
  rw [hs]
  simp only [hv]

theorem length_codeGroup (sym : Alphabet) (y : Nat → Fin 64) (k : Nat) : (codeGroup sym y k).length = 6 := by
  simp [codeGroup]

theorem length_fullCode (sym : Alphabet) (y : Nat → Fin 64) (c : Byte) : (fullCode sym y c).length = 29 := by
  simp [fullCode, codeGroup]

theorem length_legacyCode (sym : Alphabet) (y : Nat → Fin 64) (c : Byte) : (legacyCode sym y c).length = 15 := by
  simp [legacyCode, codeGroup]

/-- The character at each position of a full-form string (R42, R68). -/
theorem getElem?_fullCode (sym : Alphabet) (y : Nat → Fin 64) (c : Byte) :
    (∀ j < 24, (fullCode sym y c)[pos j]? = some sym[y j]) ∧
    (∀ j ∈ fullDashes, (fullCode sym y c)[j]? = some Config.dash) ∧
    (fullCode sym y c)[14]? = some c := by
  refine ⟨fun j hj => ?_, fun j hj => ?_, ?_⟩
  · interval_cases j <;> simp [fullCode, codeGroup, pos]
  · simp only [fullDashes, List.mem_cons, List.not_mem_nil, or_false] at hj
    rcases hj with rfl | rfl | rfl | rfl <;> simp [fullCode, codeGroup]
  · simp [fullCode, codeGroup]

/-- The character at each position of a legacy string (R42, R69). -/
theorem getElem?_legacyCode (sym : Alphabet) (y : Nat → Fin 64) (c : Byte) :
    (∀ j < 12, (legacyCode sym y c)[pos j]? = some sym[y j]) ∧
    (∀ j ∈ legacyDashes, (legacyCode sym y c)[j]? = some Config.dash) ∧
    (legacyCode sym y c)[14]? = some c := by
  refine ⟨fun j hj => ?_, fun j hj => ?_, ?_⟩
  · interval_cases j <;> simp [legacyCode, codeGroup, pos]
  · simp only [legacyDashes, List.mem_cons, List.not_mem_nil, or_false] at hj
    rcases hj with rfl | rfl <;> simp [legacyCode, codeGroup]
  · simp [legacyCode, codeGroup]

/-- Every position of a full-form string is a dash, the check position or a data position (R42). -/
theorem fullPosition_cases {k : Nat} (h : k < 29) :
    k ∈ fullDashes ∨ (k ∉ fullDashes ∧ (k = 14 ∨ ∃ j < 24, k = pos j)) := by
  revert k
  decide

theorem legacyPosition_cases {k : Nat} (h : k < 15) :
    k ∈ legacyDashes ∨ (k ∉ legacyDashes ∧ (k = 14 ∨ ∃ j < 12, k = pos j)) := by
  revert k
  decide

/-- A full-form string matches the full form (R68). -/
theorem matchesForm_fullCode {sym : Alphabet} {y : Nat → Fin 64} {c : Byte} (hc : c ∈ sym.toList) :
    matchesForm sym 29 fullDashes (fullCode sym y c) = true := by
  obtain ⟨hdata, hdash, hcheck⟩ := getElem?_fullCode sym y c
  refine matchesForm_iff.mpr ⟨length_fullCode sym y c, fun k hk => ?_⟩
  rcases fullPosition_cases hk with hd | ⟨hd, rfl | ⟨j, hj, rfl⟩⟩
  · exact ⟨_, hdash k hd, fun _ => rfl, fun h => absurd hd h⟩
  · exact ⟨_, hcheck, fun h => absurd h hd, fun _ => hc⟩
  · exact ⟨_, hdata j hj, fun h => absurd h hd, fun _ => mem_alphabet_iff.mpr ⟨_, rfl⟩⟩

theorem matchesForm_legacyCode {sym : Alphabet} {y : Nat → Fin 64} {c : Byte} (hc : c ∈ sym.toList) :
    matchesForm sym 15 legacyDashes (legacyCode sym y c) = true := by
  obtain ⟨hdata, hdash, hcheck⟩ := getElem?_legacyCode sym y c
  refine matchesForm_iff.mpr ⟨length_legacyCode sym y c, fun k hk => ?_⟩
  rcases legacyPosition_cases hk with hd | ⟨hd, rfl | ⟨j, hj, rfl⟩⟩
  · exact ⟨_, hdash k hd, fun _ => rfl, fun h => absurd hd h⟩
  · exact ⟨_, hcheck, fun h => absurd h hd, fun _ => hc⟩
  · exact ⟨_, hdata j hj, fun h => absurd h hd, fun _ => mem_alphabet_iff.mpr ⟨_, rfl⟩⟩

/-- A string of another length matches neither form (R70). -/
theorem matchesForm_length {sym : Alphabet} {n : Nat} {dashes : List Nat} {s : List Byte} (h : s.length ≠ n) :
    matchesForm sym n dashes s = false := by
  simp [matchesForm, h]

/-- Step 3 of DEC on a full-form string (R102). -/
theorem decodeString_fullCode {sym : Alphabet} (hs : sym.toList.Nodup) {y : Nat → Fin 64} {c : Byte}
    (hc : c ∈ sym.toList) : decodeString sym (fullCode sym y c) = some (payloadOf y) := by
  rw [decodeString, if_pos (matchesForm_fullCode hc)]
  refine congrArg some (Vector.ext fun j hj => ?_)
  simp only [decodedPayload, payloadOf, Vector.getElem_ofFn, hj, if_true]
  exact symbolAt_symbol hs ((getElem?_fullCode sym y c).1 j hj)

/-- Step 3 of DEC on a legacy string: groups D and E are 0 (R102, R105). -/
theorem decodeString_legacyCode {sym : Alphabet} (hs : sym.toList.Nodup) {y : Nat → Fin 64} {c : Byte}
    (hc : c ∈ sym.toList) : decodeString sym (legacyCode sym y c) = some (payloadOf (legacyValues y)) := by
  have hfull : matchesForm sym 29 fullDashes (legacyCode sym y c) = false :=
    matchesForm_length (by simp [length_legacyCode])
  rw [decodeString, hfull, matchesForm_legacyCode hc]
  refine congrArg some (Vector.ext fun j hj => ?_)
  simp only [decodedPayload, payloadOf, legacyValues, Vector.getElem_ofFn]
  split
  · rename_i hj
    exact symbolAt_symbol hs ((getElem?_legacyCode sym y c).1 j hj)
  · rfl

/-- A string that matches the full form is one of the full pattern (R68). -/
theorem fullForm_of_matches {sym : Alphabet} {s : List Byte} (h : matchesForm sym 29 fullDashes s = true) :
    FullForm sym s := by
  obtain ⟨hlen, hpos⟩ := matchesForm_iff.mp h
  have hval : ∀ j : Nat, ∃ v : Fin 64, j < 24 → s[pos j]? = some sym[v] := by
    intro j
    by_cases hj : j < 24
    · have hp : pos j < 29 ∧ pos j ∉ fullDashes := by revert j; decide
      obtain ⟨ch, hch, -, hm⟩ := hpos _ hp.1
      obtain ⟨v, hv⟩ := mem_alphabet_iff.mp (hm hp.2)
      exact ⟨v, fun _ => by rw [hch, hv]⟩
    · exact ⟨0, fun h => absurd h hj⟩
  choose y hy using hval
  obtain ⟨c, hc, -, hcm⟩ := hpos 14 (by decide)
  refine ⟨y, c, hcm (by decide), List.ext_getElem? fun k => ?_⟩
  obtain ⟨hdata, hdash, hcheck⟩ := getElem?_fullCode sym y c
  by_cases hk : k < 29
  · rcases fullPosition_cases hk with hd | ⟨hd, rfl | ⟨j, hj, rfl⟩⟩
    · obtain ⟨ch, hch, he, -⟩ := hpos k hk
      rw [hch, he hd, hdash k hd]
    · rw [hc, hcheck]
    · rw [hy j hj, hdata j hj]
  · rw [List.getElem?_eq_none (by omega), List.getElem?_eq_none (by rw [length_fullCode]; omega)]

theorem legacyForm_of_matches {sym : Alphabet} {s : List Byte} (h : matchesForm sym 15 legacyDashes s = true) :
    LegacyForm sym s := by
  obtain ⟨hlen, hpos⟩ := matchesForm_iff.mp h
  have hval : ∀ j : Nat, ∃ v : Fin 64, j < 12 → s[pos j]? = some sym[v] := by
    intro j
    by_cases hj : j < 12
    · have hp : pos j < 15 ∧ pos j ∉ legacyDashes := by revert j; decide
      obtain ⟨ch, hch, -, hm⟩ := hpos _ hp.1
      obtain ⟨v, hv⟩ := mem_alphabet_iff.mp (hm hp.2)
      exact ⟨v, fun _ => by rw [hch, hv]⟩
    · exact ⟨0, fun h => absurd h hj⟩
  choose y hy using hval
  obtain ⟨c, hc, -, hcm⟩ := hpos 14 (by decide)
  refine ⟨y, c, hcm (by decide), List.ext_getElem? fun k => ?_⟩
  obtain ⟨hdata, hdash, hcheck⟩ := getElem?_legacyCode sym y c
  by_cases hk : k < 15
  · rcases legacyPosition_cases hk with hd | ⟨hd, rfl | ⟨j, hj, rfl⟩⟩
    · obtain ⟨ch, hch, he, -⟩ := hpos k hk
      rw [hch, he hd, hdash k hd]
    · rw [hc, hcheck]
    · rw [hy j hj, hdata j hj]
  · rw [List.getElem?_eq_none (by omega), List.getElem?_eq_none (by rw [length_legacyCode]; omega)]

/-- DEC refuses a string of neither pattern (R103). -/
theorem decodeString_none {sym : Alphabet} {s : List Byte} (hf : ¬ FullForm sym s) (hl : ¬ LegacyForm sym s) :
    decodeString sym s = none := by
  rw [decodeString, if_neg (fun h => hf (fullForm_of_matches h)), if_neg (fun h => hl (legacyForm_of_matches h))]

/-- What DEC accepts, and what it loads (R102). -/
theorem decodeString_cases {sym : Alphabet} (hs : sym.toList.Nodup) (s : List Byte) :
    decodeString sym s = none ∨ ∃ y, decodeString sym s = some (payloadOf y) := by
  by_cases hf : FullForm sym s
  · obtain ⟨y, c, hc, rfl⟩ := hf
    exact .inr ⟨y, decodeString_fullCode hs hc⟩
  by_cases hl : LegacyForm sym s
  · obtain ⟨y, c, hc, rfl⟩ := hl
    exact .inr ⟨_, decodeString_legacyCode hs hc⟩
  exact .inl (decodeString_none hf hl)

/-- The data symbols ENC maps the payload to. -/
theorem dataSymbols_eq {sym : Alphabet} {x : Payload} {y : Nat → Fin 64} (hx : HoldsValues x y)
    (h : InAlphabet x) : dataSymbols sym x h = List.ofFn fun j : Fin 24 => sym[y j] := by
  unfold dataSymbols
  congr 1
  funext j
  have hj := hx j
  simp only [hj]
  rfl

/-- ENC writes the full form with the check character (R107). -/
theorem encodeString_eq_fullCode {sym : Alphabet} (hs : sym.WF) {x : Payload} {y : Nat → Fin 64}
    (hx : HoldsValues x y) (h : InAlphabet x) : encodeString sym x h = fullCode sym y (checkCharacter y) := by
  have hdigit : sym[(⟨checksum x, checksum_lt_alphabet x⟩ : Fin 64)] = checkCharacter y := by
    rw [checkCharacter, ← checksum_eq_checkDigit hx, ← symbol_digit hs (checksum_lt_ten x)]
    rfl
  unfold encodeString
  rw [dataSymbols_eq hx, hdigit]
  simp [fullCode, codeGroup, List.ofFn_succ]

theorem symbolAt_le (sym : Alphabet) (s : List Byte) (k : Nat) : (symbolAt sym s k).toNat ≤ 63 := by
  unfold symbolAt
  split
  · simp
  · split
    · simp
    · rename_i v hv
      obtain ⟨hlt, -⟩ := valueOf_some hv
      simp
      omega

theorem decodedPayload_inAlphabet (sym : Alphabet) (n : Nat) (s : List Byte) :
    InAlphabet (decodedPayload sym n s) := by
  intro i
  simp only [decodedPayload, Fin.getElem_fin, Vector.getElem_ofFn]
  split
  · exact symbolAt_le sym s _
  · simp

/-- What DEC loads is in the alphabet (R106). -/
theorem decodeString_inAlphabet {sym : Alphabet} {s : List Byte} {x : Payload}
    (h : decodeString sym s = some x) : InAlphabet x := by
  unfold decodeString at h
  split at h
  · exact Option.some.inj h ▸ decodedPayload_inAlphabet sym 24 s
  · split at h
    · exact Option.some.inj h ▸ decodedPayload_inAlphabet sym 12 s
    · cases h

end Sys2Proof.Laws
end

