-- ==== Sys2Proof/Laws/BitDisplay.lean ====
section
/-! SUPPORT. The bit display: the tokens of a code string and where they stand. -/

namespace Sys2Proof.Laws

open Sys2Proof.Machine

@[simp] theorem length_bits8 (v : Nat) : (bits8 v).length = 8 := by simp [bits8]

/-- The token of a symbol (R170). -/
theorem displayToken_symbol {sym : Alphabet} (hs : sym.WF) (v : Fin 64) :
    displayToken sym sym[v] = some (bits8 v.val) := by
  have hv : valueOf sym sym[v] = some v.val := valueOf_symbol hs.1 v.isLt
  rw [displayToken, if_neg (symbol_ne_dash hs v), hv]
  rfl

@[simp] theorem displayToken_dash (sym : Alphabet) : displayToken sym Config.dash = some [Config.dash] :=
  if_pos rfl

theorem displayTokens_append {sym : Alphabet} {s t : List Byte} {ts us : List (List Byte)}
    (hs : displayTokens sym s = some ts) (ht : displayTokens sym t = some us) :
    displayTokens sym (s ++ t) = some (ts ++ us) := by
  induction s generalizing ts with
  | nil =>
    cases hs
    exact ht
  | cons ch s ih =>
    cases h1 : displayToken sym ch with
    | none => simp [displayTokens, h1] at hs
    | some a =>
      cases h2 : displayTokens sym s with
      | none => simp [displayTokens, h1, h2] at hs
      | some b =>
        simp only [displayTokens, h1, h2, Option.some.injEq] at hs
        subst hs
        simp [displayTokens, h1, ih h2]

/-- The tokens of six symbols. -/
def groupTokens (y : Nat → Fin 64) (start : Nat) : List (List Byte) :=
  List.ofFn fun j : Fin 6 => bits8 (y (start + j)).val

theorem displayTokens_codeGroup {sym : Alphabet} (hs : sym.WF) (y : Nat → Fin 64) (k : Nat) :
    displayTokens sym (codeGroup sym y k) = some (groupTokens y k) := by
  have ht := fun j => displayToken_symbol hs (y j)
  simp only [Fin.getElem_fin] at ht
  simp [codeGroup, groupTokens, List.ofFn_succ, displayTokens, ht]

/-- The 29 tokens of the code string of a payload (R170). -/
def codeTokens (y : Nat → Fin 64) : List (List Byte) :=
  groupTokens y 0 ++ [[Config.dash]] ++ groupTokens y 6 ++ [[Config.dash]] ++ [bits8 (checkDigit y)] ++
    [[Config.dash]] ++ groupTokens y 12 ++ [[Config.dash]] ++ groupTokens y 18

theorem checkDigit_lt (y : Nat → Fin 64) : checkDigit y < 10 := Nat.mod_lt _ (by decide)

theorem displayTokens_fullCode {sym : Alphabet} (hs : sym.WF) (y : Nat → Fin 64) :
    displayTokens sym (fullCode sym y (checkCharacter y)) = some (codeTokens y) := by
  have hd : displayTokens sym [Config.dash] = some [[Config.dash]] := by simp [displayTokens]
  have hc : displayTokens sym [checkCharacter y] = some [bits8 (checkDigit y)] := by
    have hlt := checkDigit_lt y
    have ht := displayToken_symbol hs ⟨checkDigit y, by omega⟩
    have he : sym[(⟨checkDigit y, by omega⟩ : Fin 64)] = checkCharacter y := symbol_digit hs hlt
    rw [he] at ht
    simp [displayTokens, ht]
  have hg := displayTokens_codeGroup hs y
  unfold fullCode codeTokens
  exact displayTokens_append (displayTokens_append (displayTokens_append (displayTokens_append
    (displayTokens_append (displayTokens_append (displayTokens_append (displayTokens_append
      (hg 0) hd) (hg 6)) hd) hc) hd) (hg 12)) hd) (hg 18)

/-- Where token `j` of a joined list starts: each token before it is followed by one `SPACE` (R172). -/
def joinedOffset (ts : List (List Byte)) (j : Nat) : Nat := ((ts.take j).map fun t => t.length + 1).sum

theorem joinTokens_cons_cons (t u : List Byte) (ts : List (List Byte)) :
    joinTokens (t :: u :: ts) = t ++ Config.space :: joinTokens (u :: ts) := by
  simp [joinTokens, List.intercalate_cons_cons]

theorem joinedOffset_succ (t : List Byte) (ts : List (List Byte)) (j : Nat) :
    joinedOffset (t :: ts) (j + 1) = t.length + 1 + joinedOffset ts j := by
  simp [joinedOffset]

/-- The characters of token `j` stand from its offset on. -/
theorem getElem?_joinTokens {ts : List (List Byte)} {j k : Nat} {t : List Byte} (hj : ts[j]? = some t)
    (hk : k < t.length) : (joinTokens ts)[joinedOffset ts j + k]? = t[k]? := by
  induction ts generalizing j with
  | nil => simp at hj
  | cons a ts ih =>
    cases ts with
    | nil =>
      cases j with
      | zero => 
        simp at hj; subst hj
        simp [joinTokens, joinedOffset]
      | succ j => simp at hj
    | cons b ts =>
      rw [joinTokens_cons_cons]
      cases j with
      | zero =>
        simp at hj; subst hj
        simp [joinedOffset, List.getElem?_append_left hk]
      | succ j =>
        rw [joinedOffset_succ, List.getElem?_append_right (by omega)]
        have he : a.length + 1 + joinedOffset (b :: ts) j + k - a.length = joinedOffset (b :: ts) j + k + 1 := by omega
        rw [he, List.getElem?_cons_succ]
        exact ih (by simpa using hj)

/-- One `SPACE` stands before every token but the first. -/
theorem getElem?_joinTokens_space {ts : List (List Byte)} {j : Nat} (h1 : 1 ≤ j) (hj : j < ts.length) :
    (joinTokens ts)[joinedOffset ts j - 1]? = some Config.space := by
  induction ts generalizing j with
  | nil => simp at hj
  | cons a ts ih =>
    cases ts with
    | nil => simp at hj; omega
    | cons b ts =>
      obtain ⟨j, rfl⟩ : ∃ i, j = i + 1 := ⟨j - 1, by omega⟩
      rw [joinTokens_cons_cons, joinedOffset_succ]
      rw [List.getElem?_append_right (by omega)]
      cases j with
      | zero => simp [joinedOffset]
      | succ j =>
        have hp : 1 ≤ joinedOffset (b :: ts) (j + 1) := by rw [joinedOffset_succ]; omega
        have he : a.length + 1 + joinedOffset (b :: ts) (j + 1) - 1 - a.length = joinedOffset (b :: ts) (j + 1) - 1 + 1 := by omega
        rw [he, List.getElem?_cons_succ]
        exact ih (by omega) (by simpa using hj)

theorem length_joinTokens {t : List Byte} {ts : List (List Byte)} :
    (joinTokens (t :: ts)).length + 1 = ((t :: ts).map fun t => t.length + 1).sum := by
  induction ts generalizing t with
  | nil => simp [joinTokens]
  | cons b ts ih =>
    rw [joinTokens_cons_cons]
    have := ih (t := b)
    simp at this ⊢
    omega

/-- The offsets of the code string's tokens are those of R172. -/
theorem joinedOffset_codeTokens (y : Nat → Fin 64) {j : Nat} (hj : j < 29) :
    joinedOffset (codeTokens y) j = tokenOffset j := by
  interval_cases j <;> simp [joinedOffset, codeTokens, groupTokens, List.ofFn_succ, tokenOffset]

theorem codeTokens_data (y : Nat → Fin 64) {j : Nat} (hj : j < 24) :
    (codeTokens y)[dataPosition j]? = some (bits8 (y j).val) := by
  interval_cases j <;> simp [codeTokens, groupTokens, List.ofFn_succ, dataPosition]

theorem length_codeTokens (y : Nat → Fin 64) : (codeTokens y).length = 29 := by
  simp [codeTokens, groupTokens]

theorem getElem?_bits8 (v : Nat) {k : Nat} (hk : k < 8) :
    (bits8 v)[k]? = some (if v.testBit k then 0x31 else 0x30) := by
  simp [bits8, hk, Config.charOne, Config.charZero]

/-- The bit display has 232 characters (R172). -/
theorem length_display (y : Nat → Fin 64) : (joinTokens (codeTokens y)).length = 232 := by
  have h : ∃ t ts, codeTokens y = t :: ts := by simp [codeTokens, groupTokens, List.ofFn_succ]
  obtain ⟨t, ts, h⟩ := h
  have hlen := length_joinTokens (t := t) (ts := ts)
  rw [← h] at hlen
  have hsum : ((codeTokens y).map fun t => t.length + 1).sum = 233 := by
    simp [codeTokens, groupTokens, List.ofFn_succ]
  omega

end Sys2Proof.Laws
end

