-- ==== Sys2Proof/Laws/BitField.lean ====
section
/-! SUPPORT. Bit ranges: validation, masks, and what setting, clearing and testing a range does bit by bit. -/

namespace Sys2Proof.Laws

open Sys2Proof.Machine

theorem valid_iff {bo bi bs : Int} : Valid bo bi bs ↔ RangeIsValid bo bi bs := by
  unfold RangeIsValid
  omega

/-- An invalid triple names no range (R130, R136). -/
theorem bitRange?_none {bo bi bs : Int} (h : ¬ RangeIsValid bo bi bs) : bitRange? bo bi bs = none :=
  dif_neg (fun hv => h (valid_iff.mp hv))

/-- A valid triple names a range: its byte and its bits are those of R131. -/
theorem bitRange?_valid {bo bi bs : Int} (h : RangeIsValid bo bi bs) :
    ∃ r, bitRange? bo bi bs = some r ∧ r.lo ≤ r.hi ∧ r.hi ≤ 7 ∧ (r.hi : Int) = bi ∧
      ∀ (i : Fin 24) (k : Nat), InRange bo bi bs i k ↔ (i = r.index ∧ r.lo ≤ k ∧ k ≤ r.hi) := by
  have hv := valid_iff.mpr h
  refine ⟨_, dif_pos hv, ?_, ?_, ?_, fun i k => ?_⟩
  · simp only []
    omega
  · simp only []
    omega
  · simp only []
    omega
  · simp only [InRange, Fin.ext_iff]
    omega

theorem bitRange?_some_iff {bo bi bs : Int} : (bitRange? bo bi bs).isSome = true ↔ RangeIsValid bo bi bs := by
  constructor
  · intro h
    by_contra hn
    simp [bitRange?_none hn] at h
  · intro h
    obtain ⟨r, hr, -⟩ := bitRange?_valid h
    simp [hr]

/-- `mask(lo, hi)` has exactly the bits `lo..hi` (R13, R134). -/
theorem getLsbD_mask {lo hi k : Nat} (h : lo ≤ hi) (h7 : hi ≤ 7) :
    (mask lo hi).getLsbD k = true ↔ lo ≤ k ∧ k ≤ hi := by
  by_cases hk : k < 8
  · interval_cases hi <;> interval_cases lo <;> interval_cases k <;> simp [mask]
  · rw [BitVec.getLsbD_of_ge _ _ (by omega)]
    simp
    omega

/-- A range names bits of one byte. -/
abbrev InBounds (r : BitRange) : Prop := r.lo ≤ r.hi ∧ r.hi ≤ 7

theorem getElem_setBits (x : Payload) (r : BitRange) (i : Fin 24) :
    (setBits x r)[i] = if i = r.index then x[i] ||| r.mask else x[i] := by
  unfold setBits
  by_cases h : i = r.index
  · subst h
    simp
  · have h' : ¬ r.index.val = i.val := fun he => h (Fin.ext he.symm)
    simp [h, h']

theorem getElem_clearBits (x : Payload) (r : BitRange) (i : Fin 24) :
    (clearBits x r)[i] = if i = r.index then x[i] &&& ~~~ r.mask else x[i] := by
  unfold clearBits
  by_cases h : i = r.index
  · subst h
    simp
  · have h' : ¬ r.index.val = i.val := fun he => h (Fin.ext he.symm)
    simp [h, h']

/-- Setting a range, bit by bit (R131). -/
theorem setBits_bit {x : Payload} {r : BitRange} (h : InBounds r) (i : Fin 24) (k : Nat) :
    (setBits x r)[i].getLsbD k = true ↔
      ((i = r.index ∧ r.lo ≤ k ∧ k ≤ r.hi) ∨ x[i].getLsbD k = true) := by
  rw [getElem_setBits]
  have hm := getLsbD_mask (k := k) h.1 h.2
  by_cases hi : i = r.index
  · simp [hi, BitRange.mask, hm]
    tauto
  · simp [hi]

/-- Clearing a range, bit by bit (R132). -/
theorem clearBits_bit {x : Payload} {r : BitRange} (h : InBounds r) (i : Fin 24) {k : Nat} (hk : k < 8) :
    (clearBits x r)[i].getLsbD k = true ↔
      (¬ (i = r.index ∧ r.lo ≤ k ∧ k ≤ r.hi) ∧ x[i].getLsbD k = true) := by
  rw [getElem_clearBits]
  have hm := getLsbD_mask (k := k) h.1 h.2
  by_cases hi : i = r.index
  · have hm' : (mask r.lo r.hi).getLsbD k = false ↔ ¬ (r.lo ≤ k ∧ k ≤ r.hi) := by
      rw [← hm]
      simp
    simp only [hi, if_true, BitVec.getLsbD_and, BitVec.getLsbD_not, Bool.and_eq_true, hk, decide_true,
      Bool.true_and, Bool.not_eq_true', BitRange.mask, hm']
    tauto
  · simp [hi]

/-- Testing a range, bit by bit (R133). -/
theorem checkBits_iff {x : Payload} {r : BitRange} (h : InBounds r) :
    checkBits x r = true ↔ ∀ k, r.lo ≤ k → k ≤ r.hi → x[r.index].getLsbD k = true := by
  have hm : ∀ k, r.mask.getLsbD k = true ↔ r.lo ≤ k ∧ k ≤ r.hi := fun k => getLsbD_mask h.1 h.2
  unfold checkBits
  rw [beq_iff_eq]
  constructor
  · intro he k hlo hhi
    have hk := congrArg (fun v : Byte => v.getLsbD k) he
    simp only [BitVec.getLsbD_and, (hm k).mpr ⟨hlo, hhi⟩, Bool.and_true] at hk
    exact hk
  · intro hall
    apply BitVec.eq_of_getLsbD_eq
    intro k hk
    rw [BitVec.getLsbD_and]
    cases hb : r.mask.getLsbD k with
    | false => simp
    | true =>
      obtain ⟨hlo, hhi⟩ := (hm k).mp hb
      simpa using hall k hlo hhi

theorem setsExactly_setBits {bo bi bs : Int} {x : Payload} {r : BitRange} (h : InBounds r)
    (hr : ∀ (i : Fin 24) (k : Nat), InRange bo bi bs i k ↔ (i = r.index ∧ r.lo ≤ k ∧ k ≤ r.hi)) :
    SetsExactly bo bi bs x (setBits x r) := by
  intro i k _
  rw [setBits_bit h, hr]

theorem clearsExactly_clearBits {bo bi bs : Int} {x : Payload} {r : BitRange} (h : InBounds r)
    (hr : ∀ (i : Fin 24) (k : Nat), InRange bo bi bs i k ↔ (i = r.index ∧ r.lo ≤ k ∧ k ≤ r.hi)) :
    ClearsExactly bo bi bs x (clearBits x r) := by
  intro i k hk
  rw [clearBits_bit h i hk, hr]

theorem checkBits_eq_allSet {bo bi bs : Int} {x : Payload} {r : BitRange} (h : InBounds r)
    (hr : ∀ (i : Fin 24) (k : Nat), InRange bo bi bs i k ↔ (i = r.index ∧ r.lo ≤ k ∧ k ≤ r.hi)) :
    checkBits x r = true ↔ AllSet bo bi bs x := by
  rw [checkBits_iff h]
  unfold AllSet
  constructor
  · intro hall i k hik
    obtain ⟨rfl, hlo, hhi⟩ := (hr i k).mp hik
    exact hall k hlo hhi
  · intro hall k hlo hhi
    exact hall r.index k ((hr _ _).mpr ⟨rfl, hlo, hhi⟩)

/-- A byte with bit 6 or 7 set is above 63, and no other is (R21). -/
theorem le_63_iff (b : Byte) : b.toNat ≤ 63 ↔ b.getLsbD 6 = false ∧ b.getLsbD 7 = false := by
  revert b
  decide

/-- Clearing bits never raises a value (R21). -/
theorem clearBits_le {x : Payload} (r : BitRange) (i : Fin 24) : (clearBits x r)[i].toNat ≤ x[i].toNat := by
  rw [getElem_clearBits]
  split
  · rw [BitVec.toNat_and]
    exact Nat.and_le_left
  · exact Nat.le_refl _

/-- Setting a range twice is setting it once (R49). -/
@[simp] theorem setBits_setBits (x : Payload) (r : BitRange) : setBits (setBits x r) r = setBits x r := by
  refine Vector.ext fun j hj => ?_
  have h1 := getElem_setBits (setBits x r) r ⟨j, hj⟩
  have h2 := getElem_setBits x r ⟨j, hj⟩
  simp only [Fin.getElem_fin] at h1 h2
  rw [h1, h2]
  split <;> simp [BitVec.or_assoc]

/-- Clearing a range twice is clearing it once (R49). -/
@[simp] theorem clearBits_clearBits (x : Payload) (r : BitRange) : clearBits (clearBits x r) r = clearBits x r := by
  refine Vector.ext fun j hj => ?_
  have h1 := getElem_clearBits (clearBits x r) r ⟨j, hj⟩
  have h2 := getElem_clearBits x r ⟨j, hj⟩
  simp only [Fin.getElem_fin] at h1 h2
  rw [h1, h2]
  split <;> simp [BitVec.and_assoc]

end Sys2Proof.Laws
end

