-- ==== Sys2Proof/Laws/Decode.lean ====
section
/-! SUPPORT. Lemmas of the command word: its fields, the opcode map, sign extension and the decoder. -/

namespace Sys2Proof.Laws

/-- A command word as a number (R60). -/
theorem packWord_toNat (op a b c : Byte) :
    (packWord op a b c).toNat = ((op.toNat * 256 + a.toNat) * 256 + b.toNat) * 256 + c.toNat := by
  have happ : ∀ {m : Nat} (x : BitVec m) (y : Byte), (x ++ y).toNat = x.toNat * 256 + y.toNat := by
    intro m x y
    rw [BitVec.toNat_append, ← Nat.shiftLeft_add_eq_or_of_lt y.isLt, Nat.shiftLeft_eq]
  change (op ++ a ++ b ++ c).toNat = _
  simp only [happ]

section Fields
variable (w : CommandWord)

theorem opField_toNat : (opField w).toNat = w.toNat / 2 ^ 24 % 256 := by
  simp [opField, Nat.shiftRight_eq_div_pow]
theorem aField_toNat : (aField w).toNat = w.toNat / 2 ^ 16 % 256 := by
  simp [aField, Nat.shiftRight_eq_div_pow]
theorem bField_toNat : (bField w).toNat = w.toNat / 2 ^ 8 % 256 := by
  simp [bField, Nat.shiftRight_eq_div_pow]
theorem cField_toNat : (cField w).toNat = w.toNat % 256 := by
  simp [cField]

end Fields

section Pack
variable (op a b c : Byte)

@[simp] theorem opField_packWord : opField (packWord op a b c) = op := by
  apply BitVec.eq_of_toNat_eq
  rw [opField_toNat, packWord_toNat]
  omega
@[simp] theorem aField_packWord : aField (packWord op a b c) = a := by
  apply BitVec.eq_of_toNat_eq
  rw [aField_toNat, packWord_toNat]
  omega
@[simp] theorem bField_packWord : bField (packWord op a b c) = b := by
  apply BitVec.eq_of_toNat_eq
  rw [bField_toNat, packWord_toNat]
  omega
@[simp] theorem cField_packWord : cField (packWord op a b c) = c := by
  apply BitVec.eq_of_toNat_eq
  rw [cField_toNat, packWord_toNat]
  omega

end Pack

/-- A word is made of its four fields and nothing else (R60). -/
theorem packWord_fields (w : CommandWord) :
    packWord (opField w) (aField w) (bField w) (cField w) = w := by
  apply BitVec.eq_of_toNat_eq
  rw [packWord_toNat, opField_toNat, aField_toNat, bField_toNat, cField_toNat]
  omega

/-- Words are equal exactly when their fields are. -/
theorem packWord_inj {op a b c op' a' b' c' : Byte} :
    packWord op a b c = packWord op' a' b' c' ↔ op = op' ∧ a = a' ∧ b = b' ∧ c = c' := by
  constructor
  · intro h
    have ho := congrArg opField h
    have ha := congrArg aField h
    have hb := congrArg bField h
    have hc := congrArg cField h
    simp only [opField_packWord, aField_packWord, bField_packWord, cField_packWord] at ho ha hb hc
    exact ⟨ho, ha, hb, hc⟩
  · rintro ⟨rfl, rfl, rfl, rfl⟩
    rfl

/-- Masking a word masks its fields. -/
theorem packWord_and (op a b c op' a' b' c' : Byte) :
    packWord op a b c &&& packWord op' a' b' c' =
      packWord (op &&& op') (a &&& a') (b &&& b') (c &&& c') := by
  change (op ++ a ++ b ++ c) &&& (op' ++ a' ++ b' ++ c') = (op &&& op') ++ (a &&& a') ++ (b &&& b') ++ (c &&& c')
  simp only [BitVec.and_append]

@[simp] theorem ofCode_code (o : Opcode) : Opcode.ofCode o.code = some o := by cases o <;> decide

theorem ofCode_eq_some {c : Byte} {o : Opcode} : Opcode.ofCode c = some o ↔ o.code = c := by
  constructor
  · intro h
    simpa using List.find?_some h
  · rintro rfl
    exact ofCode_code o

theorem sext8_eq_toInt (f : Byte) : sext8 f = f.toInt := by
  rw [sext8, BitVec.toInt]
  split <;> split <;> omega

theorem field8_sext8 (f : Byte) : field8 (sext8 f) = f := by
  simp [sext8_eq_toInt, field8]

theorem sext8_field8 {n : Int} (h : fitsSigned8 n = true) : sext8 (field8 n) = n := by
  simp only [fitsSigned8, Bool.and_eq_true, decide_eq_true_eq] at h
  rw [sext8_eq_toInt, field8, BitVec.toInt_ofInt, Int.bmod_eq_of_le] <;> omega

theorem fitsSigned8_sext8 (f : Byte) : fitsSigned8 (sext8 f) = true := by
  have h := f.isLt
  rw [sext8]
  split <;> simp [fitsSigned8] <;> omega

/-- The decoder takes exactly the words whose opcode is assigned and whose must-be-zero fields are 0
(R60, R64). -/
theorem decode_eq_ok {w : CommandWord} {i : Instr} :
    decode w = .ok i ↔ ∃ o : Opcode, o.code = opField w ∧
      o.format.fieldsLegal (aField w) (bField w) (cField w) = true ∧
      o.assemble (aField w) (bField w) (cField w) = i := by
  unfold decode
  constructor
  · intro h
    split at h
    · cases h
    · rename_i o ho
      split at h
      · rename_i hf
        exact ⟨o, ofCode_eq_some.mp ho, hf, by simpa using h⟩
      · cases h
  · rintro ⟨o, ho, hf, rfl⟩
    simp [ofCode_eq_some.mpr ho, hf]

/-- A word put together from an assigned opcode decodes by its row alone. -/
theorem decode_packWord (o : Opcode) (a b c : Byte) :
    decode (packWord o.code a b c) =
      if o.format.fieldsLegal a b c then .ok (o.assemble a b c) else .error .nonzeroField := by
  simp [decode]

@[simp] theorem opcode_assemble (o : Opcode) (a b c : Byte) : (o.assemble a b c).opcode = o := by
  cases o <;> rfl

end Sys2Proof.Laws
end

