-- ==== Sys2Proof/Laws/Options.lean ====
section
/-! SUPPORT. The option lookup, the presentation order and the two enumerations. -/

namespace Sys2Proof.Laws

open Sys2Proof.Machine

/-! ### Lookup -/

/-- The named option is a catalog entry of that name (R150). -/
theorem namedOption_ok {s : State} {d : Descriptor} (h : s.namedOption = .ok d) :
    d ∈ s.params.catalog ∧ d.name = s.str := by
  unfold State.namedOption namedDescriptor at h
  split at h
  · cases h
  · rename_i k hk
    cases h
    refine ⟨List.getElem_mem _, ?_⟩
    unfold lookup at hk
    simpa using (List.findFinIdx?_eq_some_iff.mp hk).1

/-- A name of no entry is not found (R150). -/
theorem namedOption_absent {s : State} (h : ∀ d ∈ s.params.catalog, d.name ≠ s.str) :
    s.namedOption = .error .optionNotFound := by
  cases hn : s.namedOption with
  | error e => rw [namedOption_error hn]
  | ok d => exact absurd (namedOption_ok hn).2 (h d (namedOption_ok hn).1)

/-- Names are keys: an entry's name finds that entry (R8, R150). -/
theorem namedOption_of_mem {s : State} (hw : s.params.catalog.WF) {d : Descriptor}
    (hd : d ∈ s.params.catalog) (hn : d.name = s.str) : s.namedOption = .ok d := by
  cases h : s.namedOption with
  | ok e =>
    obtain ⟨he, hne⟩ := namedOption_ok h
    rw [List.inj_on_of_nodup_map hw.2.1 he hd (hne.trans hn.symm)]
  | error e =>
    unfold State.namedOption namedDescriptor at h
    split at h
    · rename_i hk
      unfold lookup at hk
      have := List.findFinIdx?_eq_none_iff.mp hk d hd
      simp [hn] at this
    · cases h

/-- The named option depends on `STR` and the catalog alone (R150). -/
theorem namedOption_congr {s u : State} (h1 : u.str = s.str) (h2 : u.params = s.params) :
    u.namedOption = s.namedOption := by
  rw [State.namedOption, State.namedOption, h1, h2]

/-! ### Presentation order -/

theorem keyLe_refl (d : Descriptor) : keyLe d d := by
  unfold keyLe; omega

theorem keyLe_total (d e : Descriptor) : keyLe d e ∨ keyLe e d := by
  unfold keyLe; omega

theorem keyLe_trans {d e f : Descriptor} (h : keyLe d e) (h' : keyLe e f) : keyLe d f := by
  unfold keyLe at *; omega

/-- The order of a stable sort: by key, equal keys by index. -/
def stableBefore (p q : Descriptor × Nat) : Prop := keyLe p.1 q.1 ∧ (keyLe q.1 p.1 → p.2 < q.2)

/-- Inserting an entry before later ones keeps the stable order. -/
theorem orderedInsert_stable (a : Descriptor × Nat) (l : List (Descriptor × Nat))
    (hl : l.Pairwise stableBefore) (ha : ∀ b ∈ l, a.2 < b.2) :
    (l.orderedInsert (fun d e => keyLe d.1 e.1) a).Pairwise stableBefore := by
  induction l with
  | nil => simp
  | cons b l ih =>
    rw [List.pairwise_cons] at hl
    by_cases hab : keyLe a.1 b.1
    · simp only [List.orderedInsert, if_pos hab, List.pairwise_cons]
      refine ⟨fun c hc => ?_, hl⟩
      rcases List.mem_cons.mp hc with rfl | hc'
      · exact ⟨hab, fun _ => ha c (by simp)⟩
      · exact ⟨keyLe_trans hab (hl.1 c hc').1, fun _ => ha c hc⟩
    · simp only [List.orderedInsert, if_neg hab, List.pairwise_cons]
      refine ⟨fun c hc => ?_, ih hl.2 fun c hc => ha c (by simp [hc])⟩
      rcases (List.mem_orderedInsert _).mp hc with rfl | hc'
      · exact ⟨(keyLe_total _ _).resolve_left hab, fun h => absurd h hab⟩
      · exact hl.1 c hc'

/-- A stable sort of entries whose indices ascend. -/
theorem insertionSort_stable (l : List (Descriptor × Nat)) (hl : l.Pairwise fun p q => p.2 < q.2) :
    (l.insertionSort fun d e => keyLe d.1 e.1).Pairwise stableBefore := by
  induction l with
  | nil => simp
  | cons a l ih =>
    rw [List.pairwise_cons] at hl
    exact orderedInsert_stable a _ (ih hl.2) fun b hb => hl.1 b ((List.mem_insertionSort _).mp hb)

theorem presentation_perm (cat : Catalog) : (presentation cat).Perm cat.zipIdx := List.perm_insertionSort _ _

theorem mem_presentation {cat : Catalog} {d : Descriptor} {k : Nat} :
    (d, k) ∈ presentation cat ↔ cat[k]? = some d := by
  rw [(presentation_perm cat).mem_iff, List.mem_zipIdx_iff_getElem?]

theorem presentation_stable (cat : Catalog) : (presentation cat).Pairwise stableBefore := by
  refine insertionSort_stable _ ?_
  have h : (cat.zipIdx.map Prod.snd).Pairwise (· < ·) := by
    rw [List.zipIdx_map_snd]
    exact List.pairwise_lt_range'
  exact List.pairwise_map.mp h

theorem presentedBefore_of_stable {cat : Catalog} {p q : Descriptor × Nat} (hp : p ∈ presentation cat)
    (hq : q ∈ presentation cat) (h : stableBefore p q) : PresentedBefore cat p.2 q.2 := by
  refine ⟨p.1, q.1, mem_presentation.mp hp, mem_presentation.mp hq, ?_⟩
  obtain ⟨hle, hlt⟩ := h
  unfold keyLe at hle hlt
  omega

/-- The entries in presentation order, by index (R28). -/
theorem presentation_pairwise (cat : Catalog) :
    (presentation cat).Pairwise fun p q => PresentedBefore cat p.2 q.2 :=
  (presentation_stable cat).imp_of_mem fun hp hq h => presentedBefore_of_stable hp hq h

theorem pord_perm (cat : Catalog) : (pord cat).Perm (List.range cat.length) := by
  have h := (presentation_perm cat).map Prod.snd
  rwa [List.zipIdx_map_snd, ← List.range_eq_range'] at h

/-! ### Enumeration -/

/-- The selected indices as numbers. -/
def selectedNats (cat : Catalog) (select : Descriptor → Bool) : List Nat :=
  ((presentation cat).filter fun e => select e.1).map Prod.snd

theorem selectIndices_eq (cat : Catalog) (select : Descriptor → Bool) :
    selectIndices cat select = indexWords (selectedNats cat select) := by
  simp [selectIndices, indexWords, selectedNats, Function.comp_def]

theorem mem_selectedNats {cat : Catalog} {select : Descriptor → Bool} {k : Nat} :
    k ∈ selectedNats cat select ↔ ∃ d, cat[k]? = some d ∧ select d = true := by
  simp only [selectedNats, List.mem_map, List.mem_filter, Prod.exists, exists_eq_right]
  constructor
  · rintro ⟨d, hd, hs⟩
    exact ⟨d, mem_presentation.mp hd, hs⟩
  · rintro ⟨d, hd, hs⟩
    exact ⟨d, mem_presentation.mpr hd, hs⟩

theorem selectedNats_pairwise (cat : Catalog) (select : Descriptor → Bool) :
    (selectedNats cat select).Pairwise (PresentedBefore cat) :=
  List.pairwise_map.mpr ((presentation_pairwise cat).sublist List.filter_sublist)

theorem selectedNats_sublist (cat : Catalog) (select : Descriptor → Bool) :
    (selectedNats cat select).Sublist (pord cat) := List.filter_sublist.map _

theorem allValid_iff {cat : Catalog} : allValid cat = true ↔ ∀ d ∈ cat, DescriptorIsValid d := by
  simp [allValid, descriptorRange?, bitRange?_some_iff, DescriptorIsValid]

/-- `enabled(k)` for a valid descriptor (R155). -/
theorem enabled_iff {x : Payload} {d : Descriptor} (h : DescriptorIsValid d) :
    enabled x d = true ↔ OptionEnabled x d := by
  obtain ⟨r, hr, hlo, hhi, -, hin⟩ := bitRange?_valid h
  have he : enabled x d = checkBits x r := by
    unfold enabled descriptorRange?
    rw [hr]
  rw [he]
  exact checkBits_eq_allSet ⟨hlo, hhi⟩ hin

theorem mem_selectedNats_lt {cat : Catalog} {select : Descriptor → Bool} {k : Nat}
    (h : k ∈ selectedNats cat select) : k < cat.length := by
  obtain ⟨d, hd, -⟩ := mem_selectedNats.mp h
  exact (List.getElem?_eq_some_iff.mp hd).1

/-- Catalog indices fit `IDX` entries, so the 16-bit words are as distinct as the indices (R8, R25). -/
theorem indexWords_nodup {cat : Catalog} (hw : cat.WF) {ks : List Nat} (hk : ∀ k ∈ ks, k < cat.length)
    (hn : ks.Nodup) : (indexWords ks).Nodup := by
  refine List.Nodup.map_on (fun a ha b hb hab => ?_) hn
  have hv := congrArg BitVec.toNat hab
  have h1 := hk a ha
  have h2 := hk b hb
  have h3 := hw.1
  simp only [Config.maxCatalog, BitVec.toNat_ofNat] at h3 hv
  omega

/-- What the enumerations write to `IDX` (R25). -/
theorem selectIndices_wf {cat : Catalog} (hw : cat.WF) (select : Descriptor → Bool) :
    (∀ k ∈ selectIndices cat select, k.toNat < cat.length) ∧ (selectIndices cat select).Nodup := by
  rw [selectIndices_eq]
  constructor
  · intro k hk
    obtain ⟨n, hn, rfl⟩ := List.mem_map.mp hk
    have h1 := mem_selectedNats_lt hn
    have h2 := hw.1
    simp only [Config.maxCatalog, BitVec.toNat_ofNat] at h2 ⊢
    omega
  · exact indexWords_nodup hw (fun k => mem_selectedNats_lt)
      ((selectedNats_sublist _ _).nodup ((pord_perm _).nodup_iff.mpr List.nodup_range))

end Sys2Proof.Laws
end

