-- ==== Sys2Proof/Laws/PerInstr.lean ====
section
/-! SUPPORT. One family of statements about every command as syntax: its word stands in the row of R63 that
bears its opcode, the fields its format does not use are zero, and the operand fields are read back as they
were written (R60). -/

/-- The word of a command has its row's opcode, legal must-be-zero fields and the command's own fields. -/
def Sys2Proof.Laws.RowOfWord.Statement (i : Instr) : Prop :=
  opField (encode i) = i.opcode.code ∧
  i.opcode.format.fieldsLegal (aField (encode i)) (bField (encode i)) (cField (encode i)) = true ∧
  (aField (encode i), bField (encode i), cField (encode i)) = i.fields

namespace Sys2Proof.Laws.RowOfWord

theorem valof (ch : Byte) : Statement (.valof ch) := by simp [Statement, encode, Instr.fields, Instr.opcode, Opcode.format, Format.fieldsLegal]
theorem chrof (v : Nat) : Statement (.chrof v) := by simp [Statement, encode, Instr.fields, Instr.opcode, Opcode.format, Format.fieldsLegal]
theorem clr : Statement .clr := by unfold Statement; decide
theorem dec : Statement .dec := by unfold Statement; decide
theorem enc : Statement .enc := by unfold Statement; decide
theorem csum : Statement .csum := by unfold Statement; decide
theorem setb (bo bi bs : Int) : Statement (.setb bo bi bs) := by simp [Statement, encode, Instr.fields, Instr.opcode, Opcode.format, Format.fieldsLegal]
theorem clrb (bo bi bs : Int) : Statement (.clrb bo bi bs) := by simp [Statement, encode, Instr.fields, Instr.opcode, Opcode.format, Format.fieldsLegal]
theorem chkb (bo bi bs : Int) : Statement (.chkb bo bi bs) := by simp [Statement, encode, Instr.fields, Instr.opcode, Opcode.format, Format.fieldsLegal]
theorem addo : Statement .addo := by unfold Statement; decide
theorem remo : Statement .remo := by unfold Statement; decide
theorem enopt : Statement .enopt := by unfold Statement; decide
theorem avopt : Statement .avopt := by unfold Statement; decide
theorem bits : Statement .bits := by unfold Statement; decide

end Sys2Proof.Laws.RowOfWord
end

