-- ==== Sys2Proof/Tests/Slice0.lean ====
section
/-! SUPPORT. The model's own tests: ill-formed terms the checks refuse, one word of every row written out from
R60 and R63, steps whose results are rows of spec/95_test_vectors.md (named in each comment), and for every
obligation with hypotheses a witness that meets them. -/

namespace Sys2Proof.Tests

open Sys2Proof.Machine

/-! ### Fixtures (spec/95_test_vectors.md section 0) -/

/-- A descriptor with the given name and coordinates. -/
def entry (name : String) (bo bi bs : BitVec 32) : Descriptor := ⟨ascii name, bo, bi, bs⟩

/-- `CATF`. -/
def catf : Catalog :=
  [entry "TEST" 1 2 1, entry "WIDE" 1 5 3, entry "LAST" 24 0 1, entry "HIGH" 2 7 2, entry "DUP" 1 2 1]
/-- `CATB`: `CATF` and one entry that is not valid. -/
def catb : Catalog := catf ++ [entry "BAD" 1 2 4]

/-- A block right after reset with `TA64`, the given catalog and the given load outcome. -/
def blockWith (cat : Catalog) (load : CatLoad) : State := State.construct ⟨Config.fixtureAlphabet, cat, load⟩

/-- A live block with `CATF`. -/
def live : State := blockWith catf .ok
/-- A live block with `CATB`. -/
def liveBad : State := blockWith catb .ok
/-- Dead blocks. -/
def deadU : State := blockWith catf .unavailable
def deadM : State := blockWith catf .malformed

/-- The payload with the given first bytes, the rest 0. -/
def payload (bytes : List Byte) : Payload := Vector.ofFn fun i : Fin 24 => (bytes[i.val]?).getD 0
/-- Values of the first positions, the rest 0. -/
def vals (vs : List Nat) : Nat → Fin 64 := fun j => Fin.ofNat 64 ((vs[j]?).getD 0)

/-- `live` with a payload, or with a string. -/
def withX (bytes : List Byte) : State := { live with x := payload bytes }
def withStr (text : String) : State := { live with str := ascii text }
/-- A state with lines to serve. -/
def withLines (s : State) (ls : List Line) : State := { s with input := ls }

/-- The next state of an outcome, if it is one. -/
def nextOf : Host.Outcome State Fault Refusal → Option State
  | .next s => some s
  | .fault _ => none
  | .refused _ => none
/-- The last response in the next state. -/
def reply (o : Host.Outcome State Fault Refusal) : Option Response := (nextOf o).bind fun s => s.responses.getLast?
/-- The payload's first bytes in the next state. -/
def bytesOf (n : Nat) (o : Host.Outcome State Fault Refusal) : Option (List Byte) :=
  (nextOf o).map fun s => s.x.toList.take n
/-- The string in the next state. -/
def strOf (o : Host.Outcome State Fault Refusal) : Option (List Byte) := (nextOf o).map State.str
/-- The index list in the next state. -/
def idxOf (o : Host.Outcome State Fault Refusal) : Option (List IndexWord) := (nextOf o).map State.idx

/-! ### WellFormed refuses each ill-formed term -/

theorem test_wf_chrof : (Instr.chrof 256).wf = false ∧ (Instr.chrof 255).wf = true := by decide
theorem test_wf_setb : (Instr.setb 128 0 1).wf = false ∧ (Instr.setb 1 (-129) 1).wf = false ∧
    (Instr.setb 1 0 128).wf = false ∧ (Instr.setb (-128) 127 0).wf = true := by decide
theorem test_wf_clrb : (Instr.clrb (-129) 0 1).wf = false ∧ (Instr.clrb 1 128 1).wf = false ∧
    (Instr.clrb 1 0 (-129)).wf = false := by decide
theorem test_wf_chkb : (Instr.chkb 128 0 1).wf = false ∧ (Instr.chkb 1 128 1).wf = false ∧
    (Instr.chkb 1 0 128).wf = false := by decide
theorem test_wf_str : (Line.str (List.replicate 233 0)).wf = false ∧ (Line.str (List.replicate 232 0)).wf = true := by
  decide +kernel
/-- A duplicate, a digit out of place, a dash and a code below 0x21 each make an alphabet illegal. -/
theorem test_wf_alphabet : ¬ Alphabet.WF (Config.fixtureAlphabet.set 63 0x41) ∧ ¬ Alphabet.WF (Config.fixtureAlphabet.set 3 0x2B) ∧
    ¬ Alphabet.WF (Config.fixtureAlphabet.set 63 0x2D) ∧ ¬ Alphabet.WF (Config.fixtureAlphabet.set 63 0x20) ∧
    ¬ Alphabet.WF (Config.fixtureAlphabet.set 63 0x7F) := by decide
/-- A name used twice and a name of 233 bytes each make a catalog illegal. -/
theorem test_wf_catalog : ¬ Catalog.WF [entry "A" 1 2 1, entry "A" 1 3 1] ∧
    ¬ Catalog.WF [⟨List.replicate 233 0x41, 1, 2, 1⟩] := by
  decide +kernel
/-- 65536 entries are too many. -/
theorem test_wf_catalog_size (d : Descriptor) : ¬ Catalog.WF (List.replicate 65536 d) := by
  rintro ⟨h, -⟩
  rw [List.length_replicate] at h
  exact absurd h (by decide)

/-! ### Words, field by field: op, a, b, c (R60, R63) -/

theorem test_word_valof : decode (0x01#8 ++ 0x00#8 ++ 0x00#8 ++ 0x2A#8) = .ok (.valof 0x2A) := by decide
theorem test_word_chrof : decode (0x02#8 ++ 0x00#8 ++ 0x00#8 ++ 0xFF#8) = .ok (.chrof 255) := by decide
theorem test_word_clr : decode (0x10#8 ++ 0x00#8 ++ 0x00#8 ++ 0x00#8) = .ok .clr := by decide
theorem test_word_dec : decode (0x11#8 ++ 0x00#8 ++ 0x00#8 ++ 0x00#8) = .ok .dec := by decide
theorem test_word_enc : decode (0x12#8 ++ 0x00#8 ++ 0x00#8 ++ 0x00#8) = .ok .enc := by decide
theorem test_word_csum : decode (0x18#8 ++ 0x00#8 ++ 0x00#8 ++ 0x00#8) = .ok .csum := by decide
theorem test_word_setb : decode (0x20#8 ++ 0x80#8 ++ 0x7F#8 ++ 0xFF#8) = .ok (.setb (-128) 127 (-1)) := by decide
theorem test_word_clrb : decode (0x21#8 ++ 0x0C#8 ++ 0x04#8 ++ 0x03#8) = .ok (.clrb 12 4 3) := by decide
theorem test_word_chkb : decode (0x22#8 ++ 0x01#8 ++ 0x02#8 ++ 0x04#8) = .ok (.chkb 1 2 4) := by decide
theorem test_word_addo : decode (0x28#8 ++ 0x00#8 ++ 0x00#8 ++ 0x00#8) = .ok .addo := by decide
theorem test_word_remo : decode (0x29#8 ++ 0x00#8 ++ 0x00#8 ++ 0x00#8) = .ok .remo := by decide
theorem test_word_enopt : decode (0x2A#8 ++ 0x00#8 ++ 0x00#8 ++ 0x00#8) = .ok .enopt := by decide
theorem test_word_avopt : decode (0x2B#8 ++ 0x00#8 ++ 0x00#8 ++ 0x00#8) = .ok .avopt := by decide
theorem test_word_bits : decode (0x30#8 ++ 0x00#8 ++ 0x00#8 ++ 0x00#8) = .ok .bits := by decide
/-- V-X1, V-X2, V-X3, V-X4, V-X7. -/
theorem test_word_illegal :
    decode 0x00000000 = .error .unassignedOpcode ∧ decode 0x10000001 = .error .nonzeroField ∧
    decode 0x01010037 = .error .nonzeroField ∧ decode 0x02800000 = .error .nonzeroField ∧
    decode 0x31000000 = .error .unassignedOpcode := by decide
/-- The encoder writes the words of R72's examples. -/
theorem test_encode : encode (.setb 1 (-1) 1) = 0x2001FF01 ∧ encode (.chkb 24 7 8) = 0x22180708 ∧
    encode (.valof 0x37) = 0x01000037 ∧ encode (.chrof 9) = 0x02000009 ∧ encode .enc = 0x12000000 := by decide
/-- R66, R23: the status numbers and the engine codes. -/
theorem test_codes :
    [Status.ok, .invalidCode, .optionNotFound, .invalidRange, .catalogUnavailable, .catalogMalformed, .notFound,
      .illegalCommand].map Status.code = [0, 1, 2, 3, 4, 5, 6, 7] ∧
    [Eng.ready, .deadUnavailable, .deadMalformed].map Eng.code = [0, 1, 2] := by decide

/-! ### Assembly: the examples of R72, and a line with a comment -/

theorem test_assembly :
    assembleLine (ascii "SETB 1, 2, 1") = some [.cmd 0x20010201] ∧
    assembleLine (ascii "CHKB 24, 7, 8") = some [.cmd 0x22180708] ∧
    assembleLine (ascii "SETB 1, -1, 1") = some [.cmd 0x2001FF01] ∧
    assembleLine (ascii "VALOF '7'") = some [.cmd 0x01000037] ∧
    assembleLine (ascii "CHROF 9") = some [.cmd 0x02000009] ∧
    assembleLine (ascii "ENC ; encode") = some [.cmd 0x12000000] := by decide
/-- V-S7; an operand its field cannot carry has no word (R62). -/
theorem test_assembly_forms :
    assembleLine (ascii "VALOF 0x7F") = some [.cmd 0x0100007F] ∧ assembleLine (ascii "; only a comment") = some [] ∧
    assembleLine (ascii "SETB 128, 0, 1") = none ∧ assembleLine (ascii "setb 1, 2, 1") = none := by decide

/-! ### Symbol Table -/

/-- V-S2, V-S4. -/
theorem test_valof : reply (exec (.valof 0x37) live) = some ⟨.ok, 7⟩ ∧
    reply (exec (.valof 0x2D) live) = some ⟨.notFound, 0⟩ := by decide
/-- V-S13 backwards: the last symbol of `TA64`; V-S9. -/
theorem test_valof_last : reply (exec (.valof 0x2A) live) = some ⟨.ok, 63⟩ ∧
    reply (exec (.valof 0x3A) live) = some ⟨.notFound, 0⟩ := by decide
/-- V-S12, V-S13. -/
theorem test_chrof : reply (exec (.chrof 10) live) = some ⟨.ok, 0x41⟩ ∧
    reply (exec (.chrof 63) live) = some ⟨.ok, 0x2A⟩ := by decide
/-- V-S14, V-S15. -/
theorem test_chrof_miss : reply (exec (.chrof 64) live) = some ⟨.notFound, 0⟩ ∧
    reply (exec (.chrof 255) live) = some ⟨.notFound, 0⟩ := by decide

/-! ### Transcoding -/

/-- V-T37. -/
theorem test_clr : bytesOf 24 (exec .clr { live with x := Vector.replicate 24 0xFF }) = some (List.replicate 24 0) := by
  decide
/-- V-T8: every group, a wrong check character. -/
theorem test_dec : bytesOf 24 (exec .dec (withStr "ABCDEF-abcdef-*-!#$%&*-ZzYyXx")) =
    some [0x0A, 0x0B, 0x0C, 0x0D, 0x0E, 0x0F, 0x22, 0x23, 0x24, 0x25, 0x26, 0x27, 0x3A, 0x3B, 0x3C, 0x3D, 0x3E,
      0x3F, 0x21, 0x39, 0x20, 0x38, 0x1F, 0x37] := by decide
/-- V-T2, V-T10, V-T17, V-T21. -/
theorem test_dec_forms : bytesOf 13 (exec .dec (withStr "123456-789012-7")) = some [1, 2, 3, 4, 5, 6, 7, 8, 9, 0, 1, 2, 0] ∧
    reply (exec .dec live) = some ⟨.invalidCode, 0⟩ ∧
    reply (exec .dec (withStr "123456-789012--")) = some ⟨.invalidCode, 0⟩ ∧
    reply (exec .dec (withStr "123456-789012-7-00000-0000000")) = some ⟨.invalidCode, 0⟩ := by decide
/-- V-T33. -/
theorem test_enc : strOf (exec .enc { live with x := Vector.ofFn fun i : Fin 24 => BitVec.ofNat 8 i }) =
    some (ascii "012345-6789AB-1-CDEFGH-JKLMNP") := by decide
/-- V-T36. -/
theorem test_enc_miss : reply (exec .enc (withX [0x40])) = some ⟨.notFound, 0⟩ := by decide

/-! ### Checksum -/

/-- V-C5 (a single pass), V-C6, V-C7. -/
theorem test_csum : reply (exec .csum (withX [49])) = some ⟨.ok, 3⟩ ∧
    reply (exec .csum (withX [0, 59])) = some ⟨.ok, 6⟩ ∧ reply (exec .csum (withX [14])) = some ⟨.ok, 0⟩ := by decide
/-- V-C10, V-C18. -/
theorem test_csum_all : reply (exec .csum { live with x := Vector.ofFn fun i : Fin 24 => BitVec.ofNat 8 i }) = some ⟨.ok, 1⟩ ∧
    reply (exec .csum (withX [0, 0, 0, 0, 0, 200])) = some ⟨.notFound, 0⟩ := by decide

/-! ### Bit fields -/

/-- V-B18, V-B4. -/
theorem test_setb : bytesOf 13 (exec (.setb 12 5 6) live) = some [0, 0, 0, 0, 0, 0, 0, 0, 0, 0, 0, 0x3F, 0] ∧
    (bytesOf 24 (exec (.setb 24 7 8) live)).map (fun l => l.drop 22) = some [0, 0xFF] := by decide
/-- V-B8, V-B9, V-B12. -/
theorem test_setb_invalid : reply (exec (.setb 25 0 1) live) = some ⟨.invalidRange, 0⟩ ∧
    reply (exec (.setb 1 8 1) live) = some ⟨.invalidRange, 0⟩ ∧
    reply (exec (.setb 1 2 4) live) = some ⟨.invalidRange, 0⟩ := by decide
/-- The example of R132. -/
theorem test_clrb : bytesOf 2 (exec (.clrb 1 4 3) (withX [0x3F, 0x3F])) = some [0x23, 0x3F] := by decide
/-- V-B15. -/
theorem test_clrb_invalid : reply (exec (.clrb 25 0 1) live) = some ⟨.invalidRange, 0⟩ := by decide
/-- V-B2, V-B3. -/
theorem test_chkb : reply (exec (.chkb 1 2 1) (withX [4])) = some ⟨.ok, 1⟩ ∧
    reply (exec (.chkb 1 2 2) (withX [4])) = some ⟨.ok, 0⟩ := by decide
/-- V-B16. -/
theorem test_chkb_invalid : reply (exec (.chkb 1 2 4) live) = some ⟨.invalidRange, 0⟩ := by decide

/-! ### Options -/

/-- The `WIDE` and `HIGH` rows of `CATF`. -/
theorem test_addo : bytesOf 2 (exec .addo (withStr "WIDE")) = some [0x38, 0] ∧
    bytesOf 2 (exec .addo (withStr "HIGH")) = some [0, 0xC0] := by decide
/-- V-O30, V-O35. -/
theorem test_addo_errors : reply (exec .addo { liveBad with str := ascii "BAD" }) = some ⟨.invalidRange, 0⟩ ∧
    reply (exec .addo { liveBad with str := ascii "NOPE" }) = some ⟨.optionNotFound, 0⟩ := by decide
/-- V-O16. -/
theorem test_remo : bytesOf 2 (exec .remo { withX [0x3C, 0xC0] with str := ascii "DUP" }) = some [0x38, 0xC0] := by decide
/-- V-O31. -/
theorem test_remo_errors : reply (exec .remo { liveBad with str := ascii "BAD" }) = some ⟨.invalidRange, 0⟩ ∧
    reply (exec .remo (withStr "test")) = some ⟨.optionNotFound, 0⟩ := by decide
/-- V-O19, V-O32. -/
theorem test_enopt : idxOf (exec .enopt (withX [0x38, 0xC0])) = some [1, 3] ∧
    reply (exec .enopt liveBad) = some ⟨.invalidRange, 0⟩ := by decide
/-- `PORD` of section 0, on the reset payload (R158); V-O33. -/
theorem test_avopt : idxOf (exec .avopt live) = some [0, 4, 1, 3, 2] ∧
    reply (exec .avopt liveBad) = some ⟨.invalidRange, 0⟩ := by decide

/-! ### Bit display -/

/-- V-D2, the first tokens and those at offsets 110 to 121, cut where the check digit's token ends. -/
theorem test_bits : (strOf (exec .bits (withX [4]))).map (fun l => (l.take 56, (l.drop 109).take 13)) =
    some (ascii "00100000 00000000 00000000 00000000 00000000 00000000 - ", ascii " - 01000000 -") := by decide +kernel
/-- V-D5. -/
theorem test_bits_miss : reply (exec .bits (withX [0x80])) = some ⟨.notFound, 0⟩ := by decide

/-! ### Steps, reset, the dead engine -/

/-- V-X11: decode precedes the engine check; V-X8, V-X12. -/
theorem test_dead : reply (step (withLines deadU [.cmd 0x00000000])) = some ⟨.illegalCommand, 0⟩ ∧
    reply (step (withLines deadU [.cmd 0x10000000])) = some ⟨.catalogUnavailable, 0⟩ ∧
    reply (step (withLines deadM [.cmd 0x11000000])) = some ⟨.catalogMalformed, 0⟩ := by decide
/-- P5, step 6: reset empties the string register. -/
theorem test_reset : (nextOf (step (withLines { deadU with str := [0x41] } [.reset]))).map (fun s => (s.eng, s.str)) =
    some (.deadUnavailable, []) := by decide
/-- `withFetchWord` makes the next step run that word (V-S2). -/
theorem test_withFetchWord : reply (step (State.reset.withFetchWord 32 0x01000037)) = some ⟨.ok, 7⟩ ∧
    decodeTableWord 32 0x2001FF01 = some (.setb 1 (-1) 1) := by decide
/-- What the host reads right after reset (R32, R33): `x[0]`, `SLEN`, `ICNT`, no byte of `STR` and no entry of
`IDX`; `SYM[63]` and the second name of the catalog. -/
theorem test_host_reads : live.readX 0 = 0 ∧ live.slen = 0 ∧ live.icnt = 0 ∧ live.readStr 0 = none ∧
    live.readIdx 0 = none ∧ live.readSym 63 = 0x2A ∧ (live.readCat 1).map Descriptor.name = some (ascii "WIDE") := by
  decide

/-! ### Witnesses: for each obligation with hypotheses, states and operands that meet them, at the edges of
each clause -/

theorem fixtures_wf : Alphabet.WF Config.fixtureAlphabet ∧ Catalog.WF catf ∧ Catalog.WF catb := by decide +kernel
/-- The values `40 .. 63` of V-T35. -/
def highVals : Nat → Fin 64 := fun j => Fin.ofNat 64 (40 + j)
/-- `live` holding those values. -/
def liveHigh : State := { live with x := Vector.ofFn fun i : Fin 24 => BitVec.ofNat 8 (40 + i) }

theorem witness_DecodeOfEncodeGivesTheCommandBack :
    (Instr.valof 0xFF).wf = true ∧ (Instr.chrof 255).wf = true ∧ (Instr.setb (-128) 127 (-1)).wf = true ∧
    (Instr.clrb 127 (-128) 0).wf = true ∧ (Instr.chkb 24 7 8).wf = true ∧ Instr.bits.wf = true := by decide
theorem witness_EncodeOfDecodeGivesTheWordBack :
    decode 0x2001FF01 = .ok (.setb 1 (-1) 1) ∧ decode 0x020000FF = .ok (.chrof 255) := by decide
theorem witness_MatchAndMaskSelectTheCommand :
    (Opcode.setb, 0x20000000#32, 0xFF000000#32) ∈ opcodeMap ∧ 0x2001FF01#32 &&& 0xFF000000#32 = 0x20000000#32 := by
  decide
theorem witness_IllegalWordsGetIllegalCommand :
    (∀ row ∈ opcodeMap, 0x00000000#32 &&& row.2.2 ≠ row.2.1) ∧ (∀ row ∈ opcodeMap, 0x10000001#32 &&& row.2.2 ≠ row.2.1) ∧
    (∀ row ∈ opcodeMap, 0x01010037#32 &&& row.2.2 ≠ row.2.1) ∧
    (withLines deadU [.cmd 0x10000001]).input = .cmd 0x10000001 :: [] := by decide
theorem witness_StepRunsTheDecodedCommand :
    (withLines live [.cmd 0x12000000, .reset]).input = .cmd 0x12000000 :: [.reset] ∧ decode 0x12000000 = .ok .enc := by
  decide
theorem witness_ResetGivesEveryResetValue :
    (withLines live [.reset]).input = .reset :: [] ∧ live.params.catLoad = .ok ∧
    (withLines deadU [.reset]).input = .reset :: [] ∧ deadU.params.catLoad = .unavailable ∧
    (withLines deadM [.reset]).input = .reset :: [] ∧ deadM.params.catLoad = .malformed := by decide
theorem witness_StrMoveWritesTheString :
    (withLines live [.str (List.replicate 232 0x41)]).input = .str (List.replicate 232 0x41) :: [] ∧
    (List.replicate 232 0x41).length ≤ 232 ∧
    (withLines deadU [.str (List.replicate 233 0x41)]).input = .str (List.replicate 233 0x41) :: [] ∧
    232 < (List.replicate 233 0x41).length := by
  refine ⟨rfl, ?_, rfl, ?_⟩ <;> simp only [List.length_replicate] <;> decide
theorem witness_ProgramRunsEveryLineOnceInOrder :
    (∀ l ∈ (withLines deadM [.reset, .str (ascii "X"), .cmd 0x28000000, .cmd 0]).input, l.wf = true) ∧
    4 ≤ (withLines deadM [.reset, .str (ascii "X"), .cmd 0x28000000, .cmd 0]).input.length := by decide
theorem witness_ResetMeetsTheInvariant : live.params.WF ∧ deadM.params.WF :=
  ⟨⟨fixtures_wf.1, fixtures_wf.2.1⟩, ⟨fixtures_wf.1, fixtures_wf.2.1⟩⟩
theorem witness_EveryStepKeepsTheInvariant :
    (withLines live [.cmd 0x10000000]).Inv ∧ (∃ t, step (withLines live [.cmd 0x10000000]) = .next t) ∧
    (withLines deadU [.reset]).Inv ∧ ∃ t, step (withLines deadU [.reset]) = .next t := by
  refine ⟨⟨⟨fixtures_wf.1, fixtures_wf.2.1⟩, rfl, by decide, nofun, by decide, nofun⟩, ⟨_, rfl⟩,
    ⟨⟨fixtures_wf.1, fixtures_wf.2.1⟩, rfl, by decide, nofun, by decide, nofun⟩, ⟨_, rfl⟩⟩
theorem witness_OnlyResetWritesTheEngineState :
    (∃ t, step (withLines live [.reset]) = .next t) ∧ (∃ t, step (withLines live [.cmd 0x10000000]) = .next t) ∧
    ∃ t, step live = .next t := ⟨⟨_, rfl⟩, ⟨_, rfl⟩, ⟨_, rfl⟩⟩
theorem witness_SymbolTableIsABijection :
    Alphabet.WF live.params.alphabet ∧ 64 ≤ 64 ∧ valueOf live.params.alphabet 0x2A = some 63 ∧
    0x2D ∉ live.params.alphabet.toList ∧ 9 < 10 ∧ (0x20#8).toNat < 0x21 ∧ 0x7E < (0x7F#8).toNat :=
  ⟨fixtures_wf.1, by decide⟩
theorem witness_ValofAnswersTheSymbolValue :
    Alphabet.WF live.params.alphabet ∧ live.eng = .ready ∧ live.params.alphabet[(63 : Fin 64)] = 0x2A ∧
    0x2D ∉ live.params.alphabet.toList ∧ deadU.eng = .deadUnavailable ∧ deadM.eng = .deadMalformed :=
  ⟨fixtures_wf.1, by decide⟩
theorem witness_ChrofAnswersTheSymbol :
    live.eng = .ready ∧ 64 ≤ 64 ∧ deadU.eng = .deadUnavailable ∧ deadM.eng = .deadMalformed := by decide
theorem witness_SymbolCommandsSeeOnlyTheTable :
    (∃ ch, Instr.valof 0x2D = .valof ch) ∧ (∃ v, Instr.chrof 64 = .chrof v) ∧
    (withX [0xFF]).eng = (withStr "TEST").eng ∧ (withX [0xFF]).params = (withStr "TEST").params :=
  ⟨⟨_, rfl⟩, ⟨_, rfl⟩, rfl, rfl⟩
theorem witness_ClrZeroesThePayload :
    (withX [0xFF]).eng = .ready ∧ deadU.eng = .deadUnavailable ∧ deadM.eng = .deadMalformed := by decide
theorem fullCode_high :
    ascii "ghijkm-npqrst-*-uvwxyz-!#$%&*" = fullCode Config.fixtureAlphabet highVals 0x2A := by decide
theorem legacyCode_digits :
    ascii "123456-789012-7" = legacyCode Config.fixtureAlphabet (vals [1, 2, 3, 4, 5, 6, 7, 8, 9, 0, 1, 2]) 0x37 := by
  decide
/-- A string of another length than 29 and 15 is of neither form. -/
theorem neither_form {sym : Alphabet} {t : List Byte} (h29 : t.length ≠ 29) (h15 : t.length ≠ 15) :
    ¬ FullForm sym t ∧ ¬ LegacyForm sym t := by
  constructor
  · rintro ⟨y, c, -, rfl⟩
    exact h29 (by simp [fullCode, codeGroup])
  · rintro ⟨y, c, -, rfl⟩
    exact h15 (by simp [legacyCode, codeGroup])
theorem witness_DecLoadsExactlyTheCodeStrings :
    Alphabet.WF live.params.alphabet ∧ live.eng = .ready ∧ 0x2A ∈ live.params.alphabet.toList ∧
    (withStr "ghijkm-npqrst-*-uvwxyz-!#$%&*").str = fullCode live.params.alphabet highVals 0x2A ∧
    (withStr "123456-789012-7").str =
      legacyCode live.params.alphabet (vals [1, 2, 3, 4, 5, 6, 7, 8, 9, 0, 1, 2]) 0x37 ∧
    ¬ FullForm live.params.alphabet live.str ∧ ¬ LegacyForm live.params.alphabet live.str ∧
    deadU.eng = .deadUnavailable ∧ deadM.eng = .deadMalformed :=
  ⟨fixtures_wf.1, by decide, by decide, fullCode_high, legacyCode_digits, (neither_form (by decide) (by decide)).1,
    (neither_form (by decide) (by decide)).2, by decide⟩
theorem witness_LegacyStringDecodesAsItsExtension :
    Alphabet.WF live.params.alphabet ∧ live.eng = .ready ∧
    LegacyForm live.params.alphabet (withStr "123456-789012-7").str :=
  ⟨fixtures_wf.1, by decide, _, 0x37, by decide, legacyCode_digits⟩
theorem holds_high : HoldsValues liveHigh.x highVals := by unfold HoldsValues; decide
theorem witness_EncWritesTheFullCode :
    Alphabet.WF live.params.alphabet ∧ liveHigh.eng = .ready ∧ HoldsValues liveHigh.x highVals ∧
    OutOfAlphabet (withX [64]).x ∧ deadU.eng = .deadUnavailable ∧ deadM.eng = .deadMalformed :=
  ⟨fixtures_wf.1, rfl, holds_high, ⟨0, by decide⟩, by decide⟩
theorem witness_EncThenDecRestoresThePayload :
    Alphabet.WF liveHigh.params.alphabet ∧ liveHigh.eng = .ready ∧ ∀ i : Fin 24, liveHigh.x[i].toNat ≤ 63 :=
  ⟨fixtures_wf.1, rfl, by decide⟩
theorem witness_DecThenEncRecomputesTheCheckDigit :
    Alphabet.WF live.params.alphabet ∧ live.eng = .ready ∧ 0x2A ∈ live.params.alphabet.toList ∧
    (withStr "ghijkm-npqrst-*-uvwxyz-!#$%&*").str = fullCode live.params.alphabet highVals 0x2A ∧
    0x37 ∈ live.params.alphabet.toList ∧ (withStr "123456-789012-7").str =
      legacyCode live.params.alphabet (vals [1, 2, 3, 4, 5, 6, 7, 8, 9, 0, 1, 2]) 0x37 :=
  ⟨fixtures_wf.1, by decide, by decide, fullCode_high, by decide, legacyCode_digits⟩
theorem witness_CsumAnswersTheCheckDigit :
    liveHigh.eng = .ready ∧ HoldsValues liveHigh.x highVals ∧ OutOfAlphabet (withX [0, 0, 0, 0, 0, 64]).x ∧
    deadU.eng = .deadUnavailable ∧ deadM.eng = .deadMalformed := ⟨rfl, holds_high, ⟨5, by decide⟩, by decide⟩
/-- V-C14, the maximum: 49 and 59 in turn. -/
theorem witness_ChecksumStaysInItsRange :
    Alphabet.WF Config.fixtureAlphabet ∧
    (∀ i : Fin 24, (Vector.ofFn fun i : Fin 24 => if i.val % 2 = 0 then 49#8 else 59#8)[i].toNat ≤ 63) ∧
    checksumTerm 0 49 = 17 ∧ checksumTerm 1 59 = 14 ∧
    checksumResult (Vector.ofFn fun i : Fin 24 => if i.val % 2 = 0 then 49#8 else 59#8) = 372 :=
  ⟨fixtures_wf.1, by decide⟩
theorem witness_CheckDigitsCollide :
    checksumTerm 0 (0#8).toNat % 10 = checksumTerm 0 (14#8).toNat % 10 ∧ (22 : Fin 24).val % 2 = 0 := by decide
theorem witness_CsumDependsOnThePayloadAlone :
    (withX [4]).eng = .ready ∧ ({ liveBad with x := payload [4], str := ascii "X" } : State).eng = .ready ∧
    (withX [4]).x = ({ liveBad with x := payload [4], str := ascii "X" } : State).x := ⟨rfl, rfl, rfl⟩
/-- The corners of the legal triples, and the first illegal value beyond each bound. -/
theorem rangeEdges :
    (RangeIsValid 1 0 1 ∧ RangeIsValid 24 7 8 ∧ RangeIsValid 24 7 1) ∧
    ¬ RangeIsValid 0 0 1 ∧ ¬ RangeIsValid 25 0 1 ∧ ¬ RangeIsValid 1 (-1) 1 ∧ ¬ RangeIsValid 1 8 1 ∧
    ¬ RangeIsValid 1 2 0 ∧ ¬ RangeIsValid 1 2 4 ∧ ¬ RangeIsValid 1 7 9 := by
  unfold RangeIsValid; decide
theorem witness_SetbSetsExactlyTheRange :
    live.eng = .ready ∧ RangeIsValid 24 7 8 ∧ ¬ RangeIsValid 25 0 1 ∧ deadU.eng = .deadUnavailable ∧
    deadM.eng = .deadMalformed := ⟨rfl, rangeEdges.1.2.1, rangeEdges.2.2.1, rfl, rfl⟩
theorem witness_ClrbClearsExactlyTheRange :
    live.eng = .ready ∧ RangeIsValid 1 0 1 ∧ ¬ RangeIsValid 0 0 1 ∧ deadU.eng = .deadUnavailable ∧
    deadM.eng = .deadMalformed := ⟨rfl, rangeEdges.1.1, rangeEdges.2.1, rfl, rfl⟩
theorem witness_ChkbTestsEveryBitOfTheRange :
    live.eng = .ready ∧ RangeIsValid 1 0 1 ∧ AllSet 1 0 1 (withX [1]).x ∧ ¬ AllSet 1 0 1 live.x ∧
    ¬ RangeIsValid 1 2 4 ∧ deadU.eng = .deadUnavailable ∧ deadM.eng = .deadMalformed := by
  refine ⟨rfl, rangeEdges.1.1, ?_, ?_, rangeEdges.2.2.2.2.2.2.1, rfl, rfl⟩
  · rintro i k ⟨hi, hk, hk'⟩
    have hi : i = 0 := by omega
    have hk : k = 0 := by omega
    subst hi hk
    decide
  · intro h
    have := h 0 0 ⟨by decide, by decide, by decide⟩
    exact absurd this (by decide)
theorem witness_CheckSeesWhatSetAndClearDid :
    live.eng = .ready ∧ RangeIsValid 24 7 1 ∧ 7 < 8 ∧ ¬ InRange 24 7 1 23 6 ∧ ¬ RangeIsValid 1 7 9 :=
  ⟨rfl, rangeEdges.1.2.2, by decide, by rintro ⟨-, h, -⟩; exact absurd h (by decide), rangeEdges.2.2.2.2.2.2.2⟩
theorem witness_OnlyHighBitsLeaveTheAlphabet :
    live.eng = .ready ∧ (∃ t, exec .clr live = .next t) ∧
    (∃ t, exec .dec (withStr "123456-789012-7") = .next t ∧
      t.responses = (withStr "123456-789012-7").responses ++ [⟨.ok, 0⟩]) ∧
    (∃ t, exec (.setb 1 6 1) live = .next t ∧ ¬ OutOfAlphabet live.x ∧ OutOfAlphabet t.x) ∧
    RangeIsValid 1 6 1 ∧ (6 : Int) ≤ 6 ∧ live.params.catalog.WF ∧
    (entry "HIGH" 2 7 2 ∈ live.params.catalog ∧ (entry "HIGH" 2 7 2).name = (withStr "HIGH").str ∧
      DescriptorIsValid (entry "HIGH" 2 7 2) ∧ 6 ≤ (entry "HIGH" 2 7 2).bitOffset.toInt) ∧
    OutOfAlphabet (withX [64]).x := by
  refine ⟨rfl, ⟨_, rfl⟩, ⟨_, rfl, rfl⟩, ⟨_, rfl, ?_, ⟨0, by decide⟩⟩, by unfold RangeIsValid; decide, by decide,
    fixtures_wf.2.1, ⟨by decide, rfl, by unfold DescriptorIsValid RangeIsValid; decide, by decide⟩, ⟨0, by decide⟩⟩
  rintro ⟨j, hj⟩
  revert j
  decide
theorem validEntries : ∀ d ∈ live.params.catalog, DescriptorIsValid d := by
  unfold DescriptorIsValid RangeIsValid; decide
theorem badEntry : entry "BAD" 1 2 4 ∈ liveBad.params.catalog ∧ ¬ DescriptorIsValid (entry "BAD" 1 2 4) := by
  unfold DescriptorIsValid RangeIsValid; decide
theorem absentName : ∀ d ∈ live.params.catalog, d.name ≠ (withStr "test").str := by decide
theorem witness_AddoSetsTheNamedOption :
    Catalog.WF live.params.catalog ∧ live.eng = .ready ∧ entry "LAST" 24 0 1 ∈ live.params.catalog ∧
    (entry "LAST" 24 0 1).name = (withStr "LAST").str ∧ DescriptorIsValid (entry "LAST" 24 0 1) ∧
    Catalog.WF liveBad.params.catalog ∧ entry "BAD" 1 2 4 ∈ liveBad.params.catalog ∧
    (entry "BAD" 1 2 4).name = ascii "BAD" ∧ ¬ DescriptorIsValid (entry "BAD" 1 2 4) ∧
    (∀ d ∈ live.params.catalog, d.name ≠ (withStr "test").str) ∧
    deadU.eng = .deadUnavailable ∧ deadM.eng = .deadMalformed :=
  ⟨fixtures_wf.2.1, rfl, by decide, rfl, validEntries _ (by decide), fixtures_wf.2.2, badEntry.1, rfl, badEntry.2,
    absentName, rfl, rfl⟩
theorem witness_RemoClearsTheNamedOption :
    Catalog.WF live.params.catalog ∧ live.eng = .ready ∧ entry "DUP" 1 2 1 ∈ live.params.catalog ∧
    (entry "DUP" 1 2 1).name = (withStr "DUP").str ∧ DescriptorIsValid (entry "DUP" 1 2 1) ∧
    Catalog.WF liveBad.params.catalog ∧ entry "BAD" 1 2 4 ∈ liveBad.params.catalog ∧
    (entry "BAD" 1 2 4).name = ascii "BAD" ∧ ¬ DescriptorIsValid (entry "BAD" 1 2 4) ∧
    (∀ d ∈ live.params.catalog, d.name ≠ (withStr "test").str) ∧
    deadU.eng = .deadUnavailable ∧ deadM.eng = .deadMalformed :=
  ⟨fixtures_wf.2.1, rfl, by decide, rfl, validEntries _ (by decide), fixtures_wf.2.2, badEntry.1, rfl, badEntry.2,
    absentName, rfl, rfl⟩
/-- A full catalog, an empty one, and one with an entry that is not valid. -/
theorem witness_EnoptListsTheEnabledOptions :
    live.eng = .ready ∧ (∀ d ∈ live.params.catalog, DescriptorIsValid d) ∧
    (∀ d ∈ (blockWith [] .ok).params.catalog, DescriptorIsValid d) ∧
    (∃ d ∈ liveBad.params.catalog, ¬ DescriptorIsValid d) ∧ deadU.eng = .deadUnavailable ∧ deadM.eng = .deadMalformed :=
  ⟨rfl, validEntries, by simp [blockWith, State.construct], ⟨_, badEntry⟩, rfl, rfl⟩
theorem witness_AvoptListsTheOtherOptions :
    (withX [4]).eng = .ready ∧ (∀ d ∈ (withX [4]).params.catalog, DescriptorIsValid d) ∧
    (∃ d ∈ liveBad.params.catalog, ¬ DescriptorIsValid d) ∧ deadU.eng = .deadUnavailable ∧ deadM.eng = .deadMalformed :=
  ⟨rfl, validEntries, ⟨_, badEntry⟩, rfl, rfl⟩
theorem witness_BadDescriptorStopsTheEnumeration :
    liveBad.eng = .ready ∧ entry "BAD" 1 2 4 ∈ liveBad.params.catalog ∧ ¬ DescriptorIsValid (entry "BAD" 1 2 4) ∧
    Instr.enopt ∈ [Instr.enopt, .avopt] ∧ Instr.avopt ∈ [Instr.enopt, .avopt] :=
  ⟨rfl, badEntry.1, badEntry.2, by decide, by decide⟩
theorem witness_EnabledAndAvailablePartitionTheCatalog :
    (withX [0x3C, 0xC0]).eng = .ready ∧ Catalog.WF (withX [0x3C, 0xC0]).params.catalog ∧
    ∀ d ∈ (withX [0x3C, 0xC0]).params.catalog, DescriptorIsValid d := ⟨rfl, fixtures_wf.2.1, validEntries⟩
theorem witness_BitsWritesTheDisplay :
    Alphabet.WF liveHigh.params.alphabet ∧ liveHigh.eng = .ready ∧ HoldsValues liveHigh.x highVals ∧
    OutOfAlphabet (withX [64]).x ∧ deadU.eng = .deadUnavailable ∧ deadM.eng = .deadMalformed :=
  ⟨fixtures_wf.1, rfl, holds_high, ⟨0, by decide⟩, rfl, rfl⟩
theorem witness_DeadEngineAnswersOnlyTheCatalogStatus :
    deadU.eng = .deadUnavailable ∧ deadM.eng = .deadMalformed := by decide
theorem witness_EveryCommandDeliversOneResponse :
    Instr.valof 0x30 = .valof 0x30 ∧ (∃ t, exec (.valof 0x2A) live = .next t ∧ t.responses = live.responses ++ [⟨.ok, 63⟩]) ∧
    (∃ t, exec .csum live = .next t ∧ t.responses = live.responses ++ [⟨.ok, 0⟩]) ∧
    ∃ t, exec (.chkb 1 0 1) (withX [1]) = .next t ∧ t.responses = (withX [1]).responses ++ [⟨.ok, 1⟩] :=
  ⟨rfl, ⟨_, rfl, rfl⟩, ⟨_, rfl, rfl⟩, ⟨_, rfl, rfl⟩⟩
theorem witness_TheFirstErrorIsReported :
    (withLines deadU [.cmd 0]).input = .cmd 0 :: [] ∧ (¬ ∃ i, decode 0 = .ok i) ∧
    decode 0x28000000 = .ok .addo ∧ decode 0x29000000 = .ok .remo ∧ deadU.eng = .deadUnavailable ∧
    deadM.eng = .deadMalformed ∧ liveBad.eng = .ready ∧
    (∀ d ∈ live.params.catalog, d.name ≠ (withStr "test").str) ∧ Catalog.WF liveBad.params.catalog ∧
    entry "BAD" 1 2 4 ∈ liveBad.params.catalog ∧ (entry "BAD" 1 2 4).name = ascii "BAD" ∧
    ¬ DescriptorIsValid (entry "BAD" 1 2 4) := by
  refine ⟨rfl, ?_, by decide, by decide, rfl, rfl, rfl, absentName, fixtures_wf.2.2, badEntry.1, rfl, badEntry.2⟩
  rintro ⟨i, hi⟩
  have h0 : decode 0 = .error .unassignedOpcode := by decide
  rw [h0] at hi
  cases hi
theorem witness_EachStatusComesFromItsCommands :
    (∃ t, exec .dec live = .next t ∧ t.responses = live.responses ++ [⟨.invalidCode, 0⟩]) ∧
    ∃ t, exec .dec deadU = .next t ∧ t.responses = deadU.responses ++ [⟨.catalogUnavailable, 0⟩] :=
  ⟨⟨_, rfl, rfl⟩, ⟨_, rfl, rfl⟩⟩
theorem witness_FailingCommandsWriteNothing :
    (withLines live [.cmd 0x20190001]).input = .cmd 0x20190001 :: [] ∧
    ∃ t, step (withLines live [.cmd 0x20190001]) = .next t ∧
      t.responses = (withLines live [.cmd 0x20190001]).responses ++ [⟨.invalidRange, 0⟩] ∧ Status.invalidRange ≠ .ok :=
  ⟨rfl, _, rfl, rfl, by decide⟩
theorem witness_CommandsWriteOnlyTheirOwnState :
    (∃ t, exec (.setb 1 2 1) live = .next t ∧ t.x ≠ live.x) ∧ (∃ t, exec .enc live = .next t ∧ t.str ≠ live.str) ∧
    ∃ t, exec .avopt live = .next t ∧ t.idx ≠ live.idx :=
  ⟨⟨_, rfl, by decide⟩, ⟨_, rfl, by decide⟩, ⟨_, rfl, by decide⟩⟩
theorem witness_RepeatingACommandChangesNothing : ∃ t, exec .clr live = .next t := ⟨_, rfl⟩
theorem witness_NewConstructsFromTheString :
    Alphabet.WF live.params.alphabet ∧ (ascii "ghijkm-npqrst-*-uvwxyz-!#$%&*").length ≤ 232 ∧
    (withLines live (newFrom (ascii "ghijkm-npqrst-*-uvwxyz-!#$%&*") ++ [.reset])).input =
      newFrom (ascii "ghijkm-npqrst-*-uvwxyz-!#$%&*") ++ [.reset] ∧
    live.params.catLoad = .ok ∧ 0x2A ∈ live.params.alphabet.toList ∧
    ascii "ghijkm-npqrst-*-uvwxyz-!#$%&*" = fullCode live.params.alphabet highVals 0x2A ∧
    0x37 ∈ live.params.alphabet.toList ∧ ascii "123456-789012-7" =
      legacyCode live.params.alphabet (vals [1, 2, 3, 4, 5, 6, 7, 8, 9, 0, 1, 2]) 0x37 ∧
    ¬ FullForm live.params.alphabet (ascii "bad") ∧ ¬ LegacyForm live.params.alphabet (ascii "bad") ∧
    deadU.params.catLoad = .unavailable ∧ deadM.params.catLoad = .malformed :=
  ⟨fixtures_wf.1, by decide, rfl, rfl, by decide, fullCode_high, by decide, legacyCode_digits,
    (neither_form (by decide) (by decide)).1, (neither_form (by decide) (by decide)).2, rfl, rfl⟩
theorem witness_PseudoCommandsExpandAsListed : (0x22 : Byte) ∉ ascii "123456-789012-7" := by decide

end Sys2Proof.Tests
end

/-! # Scope: the step on a command word, and the invariant of a block -/

namespace Sys2Proof.Proofs

open Sys2Proof.Machine Sys2Proof.Laws

/-! ### What the invariant rests on -/

/-- The parameters of `State.reset` (log 2) are legal: `TA64` is an alphabet, the empty list a catalog. -/
theorem resetParams_wf : Config.resetParams.WF := by
  have halphabet : Config.resetParams.alphabet.WF := by decide +kernel
  have hcatalog : Config.resetParams.catalog.WF := by decide
  exact ⟨halphabet, hcatalog⟩

theorem construct_inv {p : Params} (hp : p.WF) : (State.construct p).Inv where
  params := hp
  eng := rfl
  str := Nat.zero_le _
  idx := by simp
  idxNodup := List.nodup_nil
  responses := by simp

section Registers
variable {s : State}

theorem withInput_inv (h : s.Inv) (lines : List Line) : State.Inv { s with input := lines } := { h with }

theorem withPayload_inv (h : s.Inv) (x : Payload) : State.Inv { s with x := x } := { h with }

theorem withStr_inv (h : s.Inv) {str : List Byte} (hstr : str.length ≤ Config.strCapacity) :
    State.Inv { s with str := str } := { h with str := hstr }

theorem withIdx_inv (h : s.Inv) (select : Descriptor → Bool) :
    State.Inv { s with idx := selectIndices s.params.catalog select } :=
  have hwf := selectIndices_wf h.params.2 select
  { h with idx := hwf.1, idxNodup := hwf.2 }

theorem answered_inv (h : s.Inv) {st : Status} {v : Byte} (hv : st ≠ .ok → v = 0) : (s.answered st v).Inv where
  params := h.params
  eng := h.eng
  str := h.str
  idx := h.idx
  idxNodup := h.idxNodup
  responses := by
    intro r hr
    rw [answered_responses, List.mem_append, List.mem_singleton] at hr
    obtain hold | rfl := hr
    · exact h.responses r hold
    · exact hv

/-- A failing command keeps the invariant: its value is 0 (R65, R185). -/
theorem raised_inv (h : s.Inv) (e : Status) : (s.answered e 0).Inv := answered_inv h fun _ => rfl

/-- Reset samples `ENG` anew and empties `STR` and `IDX`, so only the parameters and the responses delivered
before it carry over (R210). -/
theorem applyReset_inv (h : s.Inv) : s.applyReset.Inv :=
  { construct_inv h.params with responses := h.responses }

end Registers

/-! ### What a successful command writes -/

/-- ENC writes 29 characters (R107). -/
theorem length_encodeString {sym : Alphabet} (hs : sym.WF) {x : Payload} (hx : InAlphabet x) :
    (encodeString sym x hx).length = 29 := by
  obtain ⟨y, hy⟩ := holdsValues_of_inAlphabet hx
  rw [encodeString_eq_fullCode hs hy, length_fullCode]

/-- BITS finds a token for every character ENC writes (R95, R170), and its display fills `STR` (R172). -/
theorem displayTokens_encodeString {sym : Alphabet} (hs : sym.WF) {x : Payload} (hx : InAlphabet x) :
    ∃ ts, displayTokens sym (encodeString sym x hx) = some ts ∧ (joinTokens ts).length = Config.strCapacity := by
  obtain ⟨y, hy⟩ := holdsValues_of_inAlphabet hx
  rw [encodeString_eq_fullCode hs hy]
  exact ⟨codeTokens y, displayTokens_fullCode hs y, length_display y⟩

/-- A rule that succeeds leaves the state as it is or writes one register: the payload, `STR` within its
capacity, or `IDX` from an enumeration of the catalog. -/
def WritesOneRegister (s s' : State) : Prop :=
  (∃ x, s' = { s with x := x }) ∨
  (∃ str, str.length ≤ Config.strCapacity ∧ s' = { s with str := str }) ∨
  (∃ select, s' = { s with idx := selectIndices s.params.catalog select })

section Writes
variable {s s' : State} {v : Byte}

theorem writesOneRegister_refl (s : State) : WritesOneRegister s s := .inl ⟨s.x, rfl⟩

theorem editRange_writes {range : Option BitRange} {edit : Payload → BitRange → Payload}
    (h : s.editRange range edit = .ok (s', v)) : WritesOneRegister s s' := by
  obtain ⟨-, he⟩ | ⟨r, -, he⟩ := editRange_cases s range edit <;> cases he.symm.trans h
  exact .inl ⟨_, rfl⟩

theorem editOption_writes {edit : Payload → BitRange → Payload}
    (h : s.editOption edit = .ok (s', v)) : WritesOneRegister s s' := by
  obtain ⟨-, he⟩ | ⟨d, -, -, he⟩ | ⟨d, r, -, -, he⟩ := editOption_cases s edit <;> cases he.symm.trans h
  exact .inl ⟨_, rfl⟩

theorem enumerate_writes {select : Descriptor → Bool}
    (h : s.enumerate select = .ok (s', v)) : WritesOneRegister s s' := by
  obtain ⟨-, he⟩ | ⟨-, he⟩ := enumerate_cases s select <;> cases he.symm.trans h
  exact .inr (.inr ⟨select, rfl⟩)

/-- Over a legal alphabet every command that succeeds writes at most one register. -/
theorem body_writes (hs : s.params.alphabet.WF) {i : Instr} (h : body i s = .ok (s', v)) :
    WritesOneRegister s s' := by
  cases i with
  | clr =>
    cases h
    exact .inl ⟨_, rfl⟩
  | dec =>
    simp only [body] at h
    split at h <;> cases h
    exact .inl ⟨_, rfl⟩
  | enc =>
    simp only [body] at h
    split at h
    next hx =>
      cases h
      exact .inr (.inl ⟨_, (length_encodeString hs hx).trans_le (by decide), rfl⟩)
    next => cases h
  | bits =>
    simp only [body] at h
    split at h
    next hx =>
      obtain ⟨ts, hts, hlen⟩ := displayTokens_encodeString hs hx
      rw [hts] at h
      cases h
      exact .inr (.inl ⟨_, hlen.le, rfl⟩)
    next => cases h
  | setb bo bi bs => exact editRange_writes h
  | clrb bo bi bs => exact editRange_writes h
  | addo => exact editOption_writes h
  | remo => exact editOption_writes h
  | enopt => exact enumerate_writes h
  | avopt => exact enumerate_writes h
  | valof | chrof | csum | chkb =>
    simp only [body] at h
    split at h <;> cases h
    exact writesOneRegister_refl s

theorem writesOneRegister_inv (h : s.Inv) (hw : WritesOneRegister s s') : s'.Inv := by
  obtain ⟨x, rfl⟩ | ⟨str, hstr, rfl⟩ | ⟨select, rfl⟩ := hw
  · exact withPayload_inv h x
  · exact withStr_inv h hstr
  · exact withIdx_inv h select

end Writes

/-! ### Commands and steps -/

theorem exec_inv {i : Instr} {s t : State} (h : s.Inv) (hexec : exec i s = .next t) : t.Inv := by
  obtain ⟨e, -, he⟩ | ⟨s', v, -, hbody, he, -⟩ := exec_cases i s <;> cases he.symm.trans hexec
  · exact raised_inv h e
  · have hs' : s'.Inv := writesOneRegister_inv h (body_writes h.params.1 hbody)
    exact answered_inv hs' fun hne => absurd rfl hne

/-- Settles O11: one case for each kind of line a step can serve. -/
theorem everyStepKeepsTheInvariant : Obligations.EveryStepKeepsTheInvariant := by
  intro s t h hstep
  obtain ⟨-, rfl⟩ | ⟨rest, -, rfl⟩ | ⟨text, rest, -, htext, rfl⟩ | ⟨w, rest, e, -, -, rfl⟩ |
    ⟨w, rest, i, -, -, hexec⟩ := step_cases hstep
  · exact h
  · exact applyReset_inv (withInput_inv h rest)
  · exact withStr_inv (withInput_inv h rest) htext
  · exact raised_inv (withInput_inv h rest) .illegalCommand
  · exact exec_inv (withInput_inv h rest) hexec

/-- Settles O6: the arm of `step` for a command word that decodes. -/
theorem stepRunsTheDecodedCommand : Obligations.StepRunsTheDecodedCommand := by
  intro s w rest i hinput hdecode
  simp only [step, hinput, hdecode]

/-- Settles O10: a constructed state meets the invariant, and `State.reset` is one with legal parameters. -/
theorem resetMeetsTheInvariant : Obligations.ResetMeetsTheInvariant :=
  ⟨fun _ => construct_inv, construct_inv resetParams_wf⟩

end Sys2Proof.Proofs

/-! # Scope: what each command and each host move writes, and the payload's alphabet -/

namespace Sys2Proof.Proofs

open Sys2Proof.Machine Sys2Proof.Laws

/-! ### Outcomes of a command from its rule -/

section Outcomes
variable {s s' : State} {i : Instr} {v : Byte}

theorem exec_of_body_ok (hs : s.eng = .ready) (hb : body i s = .ok (s', v)) :
    exec i s = .next (s'.answered .ok v) := by
  rw [exec_ready hs, hb, finish_ok]

theorem exec_of_body_error {e : Status} (hs : s.eng = .ready) (hb : body i s = .error e) :
    exec i s = .next (s.answered e 0) := by
  rw [exec_ready hs, hb, finish_error]

theorem editRange_ok {range : Option BitRange} {edit : Payload → BitRange → Payload}
    (h : s.editRange range edit = .ok (s', v)) : ∃ r, range = some r ∧ s' = { s with x := edit s.x r } := by
  obtain ⟨-, he⟩ | ⟨r, hr, he⟩ := editRange_cases s range edit <;> cases he.symm.trans h
  exact ⟨r, hr, rfl⟩

theorem editOption_ok {edit : Payload → BitRange → Payload} (h : s.editOption edit = .ok (s', v)) :
    ∃ d r, s.namedOption = .ok d ∧ descriptorRange? d = some r ∧ s' = { s with x := edit s.x r } := by
  obtain ⟨-, he⟩ | ⟨d, -, -, he⟩ | ⟨d, r, hd, hr, he⟩ := editOption_cases s edit <;> cases he.symm.trans h
  exact ⟨d, r, hd, hr, rfl⟩

theorem enumerate_ok {select : Descriptor → Bool} (h : s.enumerate select = .ok (s', v)) :
    s' = { s with idx := selectIndices s.params.catalog select } := by
  obtain ⟨-, he⟩ | ⟨-, he⟩ := enumerate_cases s select <;> cases he.symm.trans h
  rfl

theorem editOption_of_named {edit : Payload → BitRange → Payload} {d : Descriptor} {r : BitRange}
    (hd : s.namedOption = .ok d) (hr : descriptorRange? d = some r) :
    s.editOption edit = .ok ({ s with x := edit s.x r }, 0) := by
  simp only [State.editOption, hd, hr, State.editRange]

end Outcomes

/-! ### Frames -/

/-- The commands whose rules name the payload under "State written" (R20). -/
def WritesPayload (i : Instr) : Prop :=
  i = .clr ∨ i = .dec ∨ i = .addo ∨ i = .remo ∨
    (∃ bo bi bs, i = .setb bo bi bs) ∨ ∃ bo bi bs, i = .clrb bo bi bs

/-- A command that succeeds leaves the state as it is, or writes the one register its rule names. -/
theorem body_frame {i : Instr} {s s' : State} {v : Byte} (h : body i s = .ok (s', v)) :
    s' = s ∨
    ((∃ x, s' = { s with x := x }) ∧ WritesPayload i) ∨
    ((∃ str, s' = { s with str := str }) ∧ (i = .enc ∨ i = .bits)) ∨
    ((∃ idx, s' = { s with idx := idx }) ∧ (i = .enopt ∨ i = .avopt)) := by
  cases i with
  | clr =>
    cases h
    exact .inr (.inl ⟨⟨_, rfl⟩, by simp [WritesPayload]⟩)
  | dec =>
    simp only [body] at h
    split at h <;> cases h
    exact .inr (.inl ⟨⟨_, rfl⟩, by simp [WritesPayload]⟩)
  | setb bo bi bs | clrb bo bi bs =>
    obtain ⟨r, -, hs'⟩ := editRange_ok h
    exact .inr (.inl ⟨⟨_, hs'⟩, by simp [WritesPayload]⟩)
  | addo | remo =>
    obtain ⟨d, r, -, -, hs'⟩ := editOption_ok h
    exact .inr (.inl ⟨⟨_, hs'⟩, by simp [WritesPayload]⟩)
  | enc =>
    simp only [body] at h
    split at h <;> cases h
    exact .inr (.inr (.inl ⟨⟨_, rfl⟩, .inl rfl⟩))
  | bits =>
    simp only [body] at h
    split at h
    next =>
      split at h <;> cases h
      exact .inr (.inr (.inl ⟨⟨_, rfl⟩, .inr rfl⟩))
    next => cases h
  | enopt => exact .inr (.inr (.inr ⟨⟨_, enumerate_ok h⟩, .inl rfl⟩))
  | avopt => exact .inr (.inr (.inr ⟨⟨_, enumerate_ok h⟩, .inr rfl⟩))
  | valof | chrof | csum | chkb =>
    simp only [body] at h
    split at h <;> cases h
    exact .inl rfl

/-- Settles O45: a failing command writes nothing, a successful one at most the register of its rule. -/
theorem commandsWriteOnlyTheirOwnState : Obligations.CommandsWriteOnlyTheirOwnState := by
  intro i s t hexec
  obtain ⟨e, -, he⟩ | ⟨s', v, -, hbody, he, -⟩ := exec_cases i s <;> cases he.symm.trans hexec
  · simp
  · obtain rfl | ⟨⟨x, rfl⟩, hi⟩ | ⟨⟨str, rfl⟩, hi⟩ | ⟨⟨idx, rfl⟩, hi⟩ := body_frame hbody
    · simp
    · exact ⟨rfl, rfl, rfl, fun _ => hi, by simp, by simp⟩
    · exact ⟨rfl, rfl, rfl, by simp, fun _ => hi, by simp⟩
    · exact ⟨rfl, rfl, rfl, by simp, by simp, fun _ => hi⟩

/-- Settles O12: one case for each kind of line; only `.reset` builds a new `ENG`, and it keeps the
parameters. -/
theorem onlyResetWritesTheEngineState : Obligations.OnlyResetWritesTheEngineState := by
  intro s t hstep
  obtain ⟨-, rfl⟩ | ⟨rest, hreset, rfl⟩ | ⟨text, rest, -, -, rfl⟩ | ⟨w, rest, e, -, -, rfl⟩ |
    ⟨w, rest, i, -, -, hexec⟩ := step_cases hstep
  · exact ⟨rfl, .inr rfl⟩
  · exact ⟨rfl, .inl ⟨rest, hreset⟩⟩
  · exact ⟨rfl, .inr rfl⟩
  · exact ⟨rfl, .inr rfl⟩
  · obtain ⟨heng, hparams, -⟩ := commandsWriteOnlyTheirOwnState i _ t hexec
    exact ⟨hparams, .inr heng⟩

/-- Settles O40: every command passes the one engine check of `State.command` first (R184). -/
theorem deadEngineAnswersOnlyTheCatalogStatus : Obligations.DeadEngineAnswersOnlyTheCatalogStatus := by
  intro i s
  rw [RefusedWhenDead, exec_eq_command]
  exact ⟨fun h => command_unavailable h _, fun h => command_malformed h _⟩

theorem step_str {s : State} {text : List Byte} {rest : List Line} (hs : s.input = .str text :: rest) :
    step s = State.hostWriteStr { s with input := rest } text := by
  simp only [step, hs]

/-- Settles O8: the capacity check of `.str` is its only condition; `ENG` is not looked at. -/
theorem strMoveWritesTheString : Obligations.StrMoveWritesTheString := by
  intro s text rest hs
  rw [step_str hs]
  exact ⟨fun hfits => if_pos hfits, fun hlong => if_neg (Nat.not_le.mpr hlong)⟩

/-! ### Presentation order -/

/-- Settles O32: `PORD` is the second column of the stably sorted entries. -/
theorem presentationOrderIsSortedAndStable : Obligations.PresentationOrderIsSortedAndStable :=
  fun cat => ⟨pord_perm cat, List.pairwise_map.mpr (presentation_pairwise cat)⟩

/-! ### Leaving the alphabet -/

theorem not_outOfAlphabet_iff {x : Payload} : ¬ OutOfAlphabet x ↔ InAlphabet x := by
  rw [← not_inAlphabet_iff, not_not]

theorem inAlphabet_zero : InAlphabet (Vector.replicate 24 0) := by
  intro j
  simp

theorem inAlphabet_clearBits {x : Payload} (hx : InAlphabet x) (r : BitRange) : InAlphabet (clearBits x r) :=
  fun j => (clearBits_le r j).trans (hx j)

section HighBits
variable {x : Payload} {bo bi bs : Int} {r : BitRange}

/-- A range a triple names lies in one byte, its highest bit being the bit offset (R130, R131). -/
theorem bitRange?_bounds (h : bitRange? bo bi bs = some r) : InBounds r ∧ (r.hi : Int) = bi := by
  obtain ⟨r', hr', hlo, hhi, htop, -⟩ := bitRange?_valid (bitRange?_some_iff.mp (by rw [h]; rfl))
  cases hr'.symm.trans h
  exact ⟨⟨hlo, hhi⟩, htop⟩

/-- Setting a range below bit 6 leaves bits 6 and 7 of every byte as they were. -/
theorem inAlphabet_setBits (hr : InBounds r) (hx : InAlphabet x) (hlow : r.hi < 6) :
    InAlphabet (setBits x r) := by
  have hkept : ∀ (j : Fin 24) (k : Nat), 6 ≤ k → x[j].getLsbD k = false →
      (setBits x r)[j].getLsbD k = false := by
    intro j k hk hbit
    rw [← Bool.not_eq_true, setBits_bit hr, hbit]
    rintro (⟨-, -, hle⟩ | hbit)
    · omega
    · cases hbit
  intro j
  obtain ⟨h6, h7⟩ := (le_63_iff _).mp (hx j)
  exact (le_63_iff _).mpr ⟨hkept j 6 le_rfl h6, hkept j 7 (by decide) h7⟩

/-- The highest bit of the range is set, and it is bit 6 or 7. -/
theorem outOfAlphabet_setBits (h : bitRange? bo bi bs = some r) (hhigh : 6 ≤ bi) :
    OutOfAlphabet (setBits x r) := by
  obtain ⟨hr, htop⟩ := bitRange?_bounds h
  rw [← not_inAlphabet_iff]
  intro hin
  obtain ⟨h6, h7⟩ := (le_63_iff _).mp (hin r.index)
  have hset : (setBits x r)[r.index].getLsbD r.hi = true := (setBits_bit hr _ _).mpr (.inl ⟨rfl, hr.1, le_rfl⟩)
  obtain htop6 | htop7 : r.hi = 6 ∨ r.hi = 7 := by omega
  · rw [htop6, h6] at hset
    cases hset
  · rw [htop7, h7] at hset
    cases hset

theorem six_le_of_setBits_outOfAlphabet (h : bitRange? bo bi bs = some r) (hx : InAlphabet x)
    (hout : OutOfAlphabet (setBits x r)) : 6 ≤ bi := by
  obtain ⟨hr, htop⟩ := bitRange?_bounds h
  by_contra hlow
  exact not_inAlphabet_iff.mpr hout (inAlphabet_setBits hr hx (by omega))

end HighBits

section Leaving
variable {s s' : State} {v : Byte}

theorem body_dec_inAlphabet (h : body .dec s = .ok (s', v)) : InAlphabet s'.x := by
  simp only [body] at h
  split at h
  next => cases h
  next x hx =>
    cases h
    exact decodeString_inAlphabet hx

/-- Of the commands that write the payload only SETB and ADDO can bring in a high bit (R21). -/
theorem body_leaves_alphabet {i : Instr} (hbody : body i s = .ok (s', v)) (hi : WritesPayload i)
    (hin : InAlphabet s.x) (hout : OutOfAlphabet s'.x) :
    (∃ bo bi bs, i = .setb bo bi bs ∧ 6 ≤ bi) ∨
    (i = .addo ∧ ∃ d ∈ s.params.catalog, d.name = s.str ∧ 6 ≤ d.bitOffset.toInt) := by
  have hkept : ¬ InAlphabet s'.x := not_inAlphabet_iff.mpr hout
  obtain rfl | rfl | rfl | rfl | ⟨bo, bi, bs, rfl⟩ | ⟨bo, bi, bs, rfl⟩ := hi
  · cases hbody
    exact absurd inAlphabet_zero hkept
  · exact absurd (body_dec_inAlphabet hbody) hkept
  · obtain ⟨d, r, hd, hr, rfl⟩ := editOption_ok hbody
    obtain ⟨hmem, hname⟩ := namedOption_ok hd
    exact .inr ⟨rfl, d, hmem, hname, six_le_of_setBits_outOfAlphabet hr hin hout⟩
  · obtain ⟨d, r, -, -, rfl⟩ := editOption_ok hbody
    exact absurd (inAlphabet_clearBits hin r) hkept
  · obtain ⟨r, hr, rfl⟩ := editRange_ok hbody
    exact .inl ⟨bo, bi, bs, rfl, six_le_of_setBits_outOfAlphabet hr hin hout⟩
  · obtain ⟨r, -, rfl⟩ := editRange_ok hbody
    exact absurd (inAlphabet_clearBits hin r) hkept

/-- A command that leaves the alphabet has succeeded and has written the payload. -/
theorem exec_leaves_alphabet {t : State} {i : Instr} (hexec : exec i s = .next t) (hin : InAlphabet s.x)
    (hout : OutOfAlphabet t.x) :
    (∃ bo bi bs, i = .setb bo bi bs ∧ 6 ≤ bi) ∨
    (i = .addo ∧ ∃ d ∈ s.params.catalog, d.name = s.str ∧ 6 ≤ d.bitOffset.toInt) := by
  have hne : t.x ≠ s.x := fun heq => not_inAlphabet_iff.mpr (heq ▸ hout) hin
  obtain ⟨-, -, -, hwrites, -⟩ := commandsWriteOnlyTheirOwnState i s t hexec
  obtain ⟨e, -, he⟩ | ⟨s', v, -, hbody, he, -⟩ := exec_cases i s <;> cases he.symm.trans hexec
  · exact absurd rfl hne
  · exact body_leaves_alphabet hbody (hwrites hne) hin hout

theorem exec_clr_inAlphabet {t : State} (hs : s.eng = .ready) (hexec : exec .clr s = .next t) :
    InAlphabet t.x := by
  cases (exec_of_body_ok hs rfl).symm.trans hexec
  exact inAlphabet_zero

/-- The response tells a successful DEC from a failed one, which writes nothing. -/
theorem exec_dec_inAlphabet {t : State} (hexec : exec .dec s = .next t)
    (hok : t.responses = s.responses ++ [⟨.ok, 0⟩]) : InAlphabet t.x := by
  obtain ⟨e, hne, he⟩ | ⟨s', v, -, hbody, he, -⟩ := exec_cases .dec s <;> cases he.symm.trans hexec
  · simp [hne] at hok
  · have hin : InAlphabet s'.x := body_dec_inAlphabet hbody
    exact hin

theorem exec_setb_outOfAlphabet {bo bi bs : Int} (hs : s.eng = .ready) (hvalid : RangeIsValid bo bi bs)
    (hhigh : 6 ≤ bi) : ∃ t, exec (.setb bo bi bs) s = .next t ∧ OutOfAlphabet t.x := by
  obtain ⟨r, hr, -⟩ := bitRange?_valid hvalid
  have hbody : body (.setb bo bi bs) s = .ok ({ s with x := setBits s.x r }, 0) := by
    simp only [body, hr, State.editRange]
  exact ⟨_, exec_of_body_ok hs hbody, outOfAlphabet_setBits hr hhigh⟩

theorem exec_addo_outOfAlphabet {d : Descriptor} (hs : s.eng = .ready) (hcat : s.params.catalog.WF)
    (hd : d ∈ s.params.catalog) (hname : d.name = s.str) (hvalid : DescriptorIsValid d)
    (hhigh : 6 ≤ d.bitOffset.toInt) : ∃ t, exec .addo s = .next t ∧ OutOfAlphabet t.x := by
  obtain ⟨r, hr, -⟩ := bitRange?_valid hvalid
  have hbody : body .addo s = .ok ({ s with x := setBits s.x r }, 0) :=
    editOption_of_named (namedOption_of_mem hcat hd hname) hr
  exact ⟨_, exec_of_body_ok hs hbody, outOfAlphabet_setBits hr hhigh⟩

/-- ENC, CSUM and BITS check the payload before anything else of their rules (R108, R120, R170). -/
theorem body_notFound {i : Instr} (hi : i ∈ [Instr.enc, .csum, .bits]) (hx : ¬ InAlphabet s.x) :
    body i s = .error .notFound := by
  simp only [List.mem_cons, List.not_mem_nil, or_false] at hi
  obtain rfl | rfl | rfl := hi
  · exact dif_neg hx
  · exact if_neg hx
  · exact dif_neg hx

end Leaving

/-- Settles O31: each clause is a lemma above; a payload byte is above 63 exactly when its bit 6 or 7 is
set. -/
theorem onlyHighBitsLeaveTheAlphabet : Obligations.OnlyHighBitsLeaveTheAlphabet := by
  simp only [Obligations.OnlyHighBitsLeaveTheAlphabet, not_outOfAlphabet_iff]
  exact ⟨fun _ => inAlphabet_zero,
    fun _ _ => exec_clr_inAlphabet,
    fun _ _ => exec_dec_inAlphabet,
    fun _ _ _ => exec_leaves_alphabet,
    fun _ _ _ _ => exec_setb_outOfAlphabet,
    fun _ _ => exec_addo_outOfAlphabet,
    fun _ hs hout _ hi => exec_of_body_error hs (body_notFound hi (not_inAlphabet_iff.mpr hout))⟩

end Sys2Proof.Proofs

/-! # Scope: a command issued twice in a row -/

namespace Sys2Proof.Proofs

open Sys2Proof.Machine Sys2Proof.Laws

/-! ### No rule looks at the delivered responses -/

/-- What a rule ends with, when one more response stood in the state it began in. -/
def withAnswer (st : Status) (w : Byte) (b : Body) : Body := b.map fun p => (p.1.answered st w, p.2)

section Answered
variable (s : State) (st : Status) (w : Byte)

@[simp] theorem withAnswer_error (e : Status) : withAnswer st w (.error e) = .error e := rfl

@[simp] theorem withAnswer_ok (v : Byte) : withAnswer st w (.ok (s, v)) = .ok (s.answered st w, v) := rfl

theorem editRange_answered (range : Option BitRange) (edit : Payload → BitRange → Payload) :
    (s.answered st w).editRange range edit = withAnswer st w (s.editRange range edit) := by
  cases range <;> rfl

theorem editOption_answered (edit : Payload → BitRange → Payload) :
    (s.answered st w).editOption edit = withAnswer st w (s.editOption edit) := by
  have hnamed : (s.answered st w).namedOption = s.namedOption := rfl
  rw [State.editOption, State.editOption, hnamed]
  cases s.namedOption with
  | error e => rfl
  | ok d => exact editRange_answered s st w (descriptorRange? d) edit

theorem enumerate_answered (select : Descriptor → Bool) :
    (s.answered st w).enumerate select = withAnswer st w (s.enumerate select) := by
  rw [State.enumerate, State.enumerate, apply_ite (withAnswer st w)]
  rfl

/-- A rule reads the block's registers and parameters only, so a response delivered before it changes nothing
of what it ends with. -/
theorem body_answered (i : Instr) : body i (s.answered st w) = withAnswer st w (body i s) := by
  cases i with
  | clr => rfl
  | setb bo bi bs | clrb bo bi bs => exact editRange_answered s st w _ _
  | addo | remo => exact editOption_answered s st w _
  | enopt | avopt => exact enumerate_answered s st w _
  | csum =>
    rw [body, body, apply_ite (withAnswer st w)]
    rfl
  | enc =>
    rw [body, body, apply_dite (withAnswer st w)]
    rfl
  | bits =>
    rw [body, body, apply_dite (withAnswer st w)]
    refine dite_congr rfl (fun hx => ?_) fun _ => rfl
    simp only [answered_x, answered_params]
    cases displayTokens s.params.alphabet (encodeString s.params.alphabet s.x hx) <;> rfl
  | valof | chrof | dec | chkb =>
    simp only [body, answered_x, answered_str, answered_params]
    split <;> rfl

end Answered

/-! ### A rule that succeeded has nothing left to change -/

section Repeated
variable {s s' : State} {v : Byte}

theorem editRange_repeat {range : Option BitRange} {edit : Payload → BitRange → Payload}
    (hedit : ∀ x r, edit (edit x r) r = edit x r) (h : s.editRange range edit = .ok (s', v)) :
    s'.editRange range edit = .ok (s', v) := by
  obtain ⟨-, he⟩ | ⟨r, rfl, he⟩ := editRange_cases s range edit <;> cases he.symm.trans h
  simp only [State.editRange, hedit]

/-- The option is looked up in the same `STR` again (R152, R153). -/
theorem editOption_repeat {edit : Payload → BitRange → Payload}
    (hedit : ∀ x r, edit (edit x r) r = edit x r) (h : s.editOption edit = .ok (s', v)) :
    s'.editOption edit = .ok (s', v) := by
  obtain ⟨-, he⟩ | ⟨d, -, -, he⟩ | ⟨d, r, hd, hr, he⟩ := editOption_cases s edit <;> cases he.symm.trans h
  have hnamed : State.namedOption { s with x := edit s.x r } = .ok d := hd
  rw [editOption_of_named hnamed hr, hedit]

theorem enumerate_repeat {select : Descriptor → Bool} (h : s.enumerate select = .ok (s', v)) :
    s'.enumerate select = .ok (s', v) := by
  obtain ⟨-, he⟩ | ⟨hvalid, he⟩ := enumerate_cases s select <;> cases he.symm.trans h
  simp only [State.enumerate, hvalid, if_true]

/-- The second run of a rule ends as the first did: no command but an edit of the payload writes what it
reads, and an edit through the same range changes nothing more. -/
theorem body_repeat {i : Instr} (h : body i s = .ok (s', v)) : body i s' = .ok (s', v) := by
  cases i with
  | clr =>
    cases h
    rfl
  | setb bo bi bs => exact editRange_repeat setBits_setBits h
  | clrb bo bi bs => exact editRange_repeat clearBits_clearBits h
  | addo => exact editOption_repeat setBits_setBits h
  | remo => exact editOption_repeat clearBits_clearBits h
  | enopt | avopt =>
    have hx : s'.x = s.x := by rw [enumerate_ok h]
    simp only [body, hx]
    exact enumerate_repeat h
  | dec =>
    simp only [body] at h
    split at h <;> cases h
    next x hx => simp only [body, hx]
  | enc =>
    simp only [body] at h
    split at h
    next hx =>
      cases h
      exact dif_pos hx
    next => cases h
  | bits =>
    simp only [body] at h
    split at h
    next hx =>
      split at h
      next => cases h
      next ts hts =>
        cases h
        simp only [body, dif_pos hx, hts]
    next => cases h
  | valof | chrof | csum | chkb =>
    have hs' : s' = s := by
      simp only [body] at h
      split at h <;> cases h
      rfl
    rw [hs'] at h ⊢
    exact h

end Repeated

/-- Settles O46: a dead engine answers the same again, a rule that failed wrote nothing, and a rule that
succeeded ends the same in the state it left. -/
theorem repeatingACommandChangesNothing : Obligations.RepeatingACommandChangesNothing := by
  intro i s t hexec
  cases heng : s.eng with
  | deadUnavailable =>
    cases ((deadEngineAnswersOnlyTheCatalogStatus i s).1 heng).symm.trans hexec
    exact ⟨⟨.catalogUnavailable, 0⟩, rfl, (deadEngineAnswersOnlyTheCatalogStatus i _).1 heng⟩
  | deadMalformed =>
    cases ((deadEngineAnswersOnlyTheCatalogStatus i s).2 heng).symm.trans hexec
    exact ⟨⟨.catalogMalformed, 0⟩, rfl, (deadEngineAnswersOnlyTheCatalogStatus i _).2 heng⟩
  | ready =>
    obtain ⟨e, -, hbody⟩ | ⟨s', v, hbody, heng', -, -, hresponses⟩ := body_cases i s
    · cases (exec_of_body_error heng hbody).symm.trans hexec
      have hagain : body i (s.answered e 0) = .error e := by rw [body_answered, hbody, withAnswer_error]
      exact ⟨⟨e, 0⟩, rfl, exec_of_body_error heng hagain⟩
    · cases (exec_of_body_ok heng hbody).symm.trans hexec
      have hagain : body i (s'.answered .ok v) = .ok (s'.answered .ok v, v) := by
        rw [body_answered, body_repeat hbody, withAnswer_ok]
      have hlive : (s'.answered .ok v).eng = .ready := heng'.trans heng
      exact ⟨⟨.ok, v⟩, by rw [answered_responses, hresponses], exec_of_body_ok hlive hagain⟩

end Sys2Proof.Proofs

/-! # Scope: command words and commands, a program run, and the assembly of quoted lines -/

namespace Sys2Proof.Proofs

open Sys2Proof.Machine Sys2Proof.Laws

/-! ### Words and commands -/

section Fields
variable {a b c : Byte}

theorem fieldsLegal_z : Format.z.fieldsLegal a b c = true ↔ a = 0 ∧ b = 0 ∧ c = 0 := by
  simp [Format.fieldsLegal, and_assoc]

theorem fieldsLegal_k : Format.k.fieldsLegal a b c = true ↔ a = 0 ∧ b = 0 := by
  simp [Format.fieldsLegal]

/-- A command writes only the fields its format uses (R60). -/
theorem fieldsLegal_fields (i : Instr) :
    i.opcode.format.fieldsLegal i.fields.1 i.fields.2.1 i.fields.2.2 = true := by
  cases i <;> rfl

/-- Operand assembly reads back the operands of a well-formed command (R61): an unsigned byte for CHROF,
signed bytes for format R. -/
theorem assemble_fields {i : Instr} (h : i.wf = true) :
    i.opcode.assemble i.fields.1 i.fields.2.1 i.fields.2.2 = i := by
  cases i with
  | chrof v =>
    have hv : v ≤ 255 := by simpa [Instr.wf] using h
    have hread : (BitVec.ofNat 8 v).toNat = v := Nat.mod_eq_of_lt (by omega)
    exact congrArg Instr.chrof hread
  | setb bo bi bs | clrb bo bi bs | chkb bo bi bs =>
    simp only [Instr.wf, Bool.and_eq_true] at h
    obtain ⟨⟨hbo, hbi⟩, hbs⟩ := h
    simp only [Instr.opcode, Instr.fields, Opcode.assemble, sext8_field8 hbo, sext8_field8 hbi, sext8_field8 hbs]
  | _ => rfl

/-- Fields that keep the must-be-zero rule are the fields of the command they make (R60, R61). -/
theorem fields_assemble {o : Opcode} (h : o.format.fieldsLegal a b c = true) :
    (o.assemble a b c).fields = (a, b, c) := by
  cases o with
  | valof =>
    obtain ⟨rfl, rfl⟩ := fieldsLegal_k.mp h
    rfl
  | chrof =>
    obtain ⟨rfl, rfl⟩ := fieldsLegal_k.mp h
    simp [Opcode.assemble, Instr.fields]
  | setb | clrb | chkb => simp only [Opcode.assemble, Instr.fields, field8_sext8]
  | _ =>
    obtain ⟨rfl, rfl, rfl⟩ := fieldsLegal_z.mp h
    rfl

theorem wf_assemble (o : Opcode) (a b c : Byte) : (o.assemble a b c).wf = true := by
  cases o with
  | chrof =>
    have hc : c.toNat ≤ 255 := Nat.le_of_lt_succ c.isLt
    simpa [Opcode.assemble, Instr.wf] using hc
  | setb | clrb | chkb => simp [Opcode.assemble, Instr.wf, fitsSigned8_sext8]
  | _ => rfl

end Fields

/-- Settles O2: the encoder's word stands in the command's row, and its fields assemble to the operands. -/
theorem decodeOfEncodeGivesTheCommandBack : Obligations.DecodeOfEncodeGivesTheCommandBack := by
  intro i hwf
  rw [encode, decode_packWord, if_pos (fieldsLegal_fields i), assemble_fields hwf]

/-- Settles O3: a legal word is its opcode and the fields of its command. -/
theorem encodeOfDecodeGivesTheWordBack : Obligations.EncodeOfDecodeGivesTheWordBack := by
  intro w i hdecode
  obtain ⟨o, hcode, hlegal, rfl⟩ := decode_eq_ok.mp hdecode
  refine ⟨wf_assemble _ _ _ _, ?_⟩
  rw [encode, opcode_assemble, fields_assemble hlegal, hcode, packWord_fields]

/-! ### Rows of the opcode map -/

/-- The mask of a format (R63): the opcode and the must-be-zero fields. -/
def formatMask : Format → CommandWord
  | .z => packWord 0xFF 0xFF 0xFF 0xFF
  | .k => packWord 0xFF 0xFF 0xFF 0x00
  | .r => packWord 0xFF 0x00 0x00 0x00

/-- R63's columns `match` and `mask` follow from `op` and `format`. -/
theorem opcodeMap_eq :
    opcodeMap = Opcode.all.map fun o => (o, packWord o.code 0 0 0, formatMask o.format) := by
  decide

theorem mem_opcodeMap {row : Opcode × CommandWord × CommandWord} :
    row ∈ opcodeMap ↔ row.2.1 = packWord row.1.code 0 0 0 ∧ row.2.2 = formatMask row.1.format := by
  obtain ⟨o, m, k⟩ := row
  have hall : o ∈ Opcode.all := by cases o <;> decide
  simp [opcodeMap_eq, hall, eq_comm]

/-- Under the mask of a format a word keeps its opcode and the fields that must be zero. -/
theorem and_formatMask (f : Format) (op : Byte) (w : CommandWord) :
    w &&& formatMask f = packWord op 0 0 0 ↔
      op = opField w ∧ f.fieldsLegal (aField w) (bField w) (cField w) = true := by
  have hones (x : Byte) : x &&& 0xFF = x := BitVec.and_allOnes
  have hzero (x : Byte) : x &&& 0x00 = 0 := BitVec.and_zero
  conv_lhs => rw [← packWord_fields w]
  rw [eq_comm (a := op)]
  cases f with
  | z => simp only [formatMask, packWord_and, packWord_inj, hones, fieldsLegal_z]
  | k => simp only [formatMask, packWord_and, packWord_inj, hones, hzero, fieldsLegal_k, and_true]
  | r => simp only [formatMask, packWord_and, packWord_inj, hones, hzero, Format.fieldsLegal, and_true]

/-- A word decodes to a command of a row exactly when it has the row's opcode and legal fields (R60, R63). -/
theorem decode_opcode_iff {w : CommandWord} {o : Opcode} :
    (∃ i, decode w = .ok i ∧ i.opcode = o) ↔
      o.code = opField w ∧ o.format.fieldsLegal (aField w) (bField w) (cField w) = true := by
  constructor
  · rintro ⟨i, hdecode, rfl⟩
    obtain ⟨o, hcode, hlegal, rfl⟩ := decode_eq_ok.mp hdecode
    rw [opcode_assemble]
    exact ⟨hcode, hlegal⟩
  · rintro ⟨hcode, hlegal⟩
    exact ⟨_, decode_eq_ok.mpr ⟨o, hcode, hlegal, rfl⟩, opcode_assemble o _ _ _⟩

/-- Settles O4: a row's match and mask test the opcode and the must-be-zero fields, as the decoder does. -/
theorem matchAndMaskSelectTheCommand : Obligations.MatchAndMaskSelectTheCommand := by
  constructor
  · intro w row hrow
    obtain ⟨hmatch, hmask⟩ := mem_opcodeMap.mp hrow
    rw [hmatch, hmask, and_formatMask, decode_opcode_iff]
  · intro i
    exact ⟨(i.opcode, packWord i.opcode.code 0 0 0, formatMask i.opcode.format),
      mem_opcodeMap.mpr ⟨rfl, rfl⟩, rfl⟩

theorem decodes_iff_matches (w : CommandWord) :
    (∃ i, decode w = .ok i) ↔ ∃ row ∈ opcodeMap, w &&& row.2.2 = row.2.1 := by
  obtain ⟨hselects, hrows⟩ := matchAndMaskSelectTheCommand
  constructor
  · rintro ⟨i, hdecode⟩
    obtain ⟨row, hrow, hop⟩ := hrows i
    exact ⟨row, hrow, (hselects w row hrow).mp ⟨i, hdecode, hop.symm⟩⟩
  · rintro ⟨row, hrow, hmatch⟩
    obtain ⟨i, hdecode, -⟩ := (hselects w row hrow).mpr hmatch
    exact ⟨i, hdecode⟩

theorem step_illegal {s : State} {w : CommandWord} {rest : List Line} (hs : s.input = .cmd w :: rest)
    (hw : ¬ ∃ i, decode w = .ok i) :
    step s = .next (State.answered { s with input := rest } .illegalCommand 0) := by
  cases hdecode : decode w with
  | ok i => exact absurd ⟨i, hdecode⟩ hw
  | error e => simp only [step, hs, hdecode, State.illegal, raise_eq_answered]

/-- Settles O5: no row matches a word that decodes to nothing, and its step never looks at `ENG`. -/
theorem illegalWordsGetIllegalCommand : Obligations.IllegalWordsGetIllegalCommand := by
  intro w
  have hiff : (¬ ∃ i, decode w = .ok i) ↔ ∀ row ∈ opcodeMap, w &&& row.2.2 ≠ row.2.1 := by
    simp only [decodes_iff_matches, not_exists, not_and, ne_eq]
  exact ⟨hiff, fun hnone s rest hs => step_illegal hs (hiff.mpr hnone)⟩

/-- Settles O1: each sample word is decoded as it stands. -/
theorem sampleWordsDecodeAsWritten : Obligations.SampleWordsDecodeAsWritten := by
  unfold Obligations.SampleWordsDecodeAsWritten
  decide

/-! ### Programs -/

theorem commandCount_cons (l : Line) (program : List Line) :
    commandCount (l :: program) = commandCount [l] + commandCount program :=
  List.countP_append (l₁ := [l])

/-- A program of legal lines runs for `n` of its lines: they are taken in order, the responses delivered
before stay, and each command word among them adds one. -/
theorem exists_runsTo (n : Nat) (s : State) (hwf : ∀ l ∈ s.input, l.wf = true) (hn : n ≤ s.input.length) :
    ∃ t rs, RunsTo n s t ∧ t.input = s.input.drop n ∧ t.responses = s.responses ++ rs ∧
      rs.length = commandCount (s.input.take n) := by
  induction n generalizing s with
  | zero => exact ⟨s, [], runsTo_zero.mpr rfl, rfl, by simp, rfl⟩
  | succ n ih =>
    cases hs : s.input with
    | nil => simp [hs] at hn
    | cons l rest =>
      rw [hs] at hwf hn
      obtain ⟨hl, hrest⟩ := List.forall_mem_cons.mp hwf
      obtain ⟨u, rs, hstep, rfl, hu, hrs⟩ := step_takes_line hs hl
      obtain ⟨t, rs', hrun, hdrop, ht, hrs'⟩ := ih u hrest (Nat.le_of_succ_le_succ hn)
      refine ⟨t, rs ++ rs', runsTo_succ hstep hrun, hdrop, by rw [ht, hu, List.append_assoc], ?_⟩
      rw [List.take_succ_cons, commandCount_cons, List.length_append, hrs, hrs']

/-- Settles O9: the responses after `n` lines are those before them and one for each command word. -/
theorem programRunsEveryLineOnceInOrder : Obligations.ProgramRunsEveryLineOnceInOrder := by
  intro s hwf n hn
  obtain ⟨t, rs, hrun, hinput, hresponses, hcount⟩ := exists_runsTo n s hwf hn
  refine ⟨t, hrun, hinput, ?_, ?_⟩
  · rw [hresponses, List.length_append, hcount]
  · rw [hresponses, List.take_left]

/-! ### The value of a response -/

/-- The commands that return a scalar (R65). -/
def ReturnsScalar (i : Instr) : Prop :=
  (∃ ch, i = .valof ch) ∨ (∃ c, i = .chrof c) ∨ i = .csum ∨ ∃ bo bi bs, i = .chkb bo bi bs

section Values
variable {s s' : State} {v : Byte}

theorem editRange_value {range : Option BitRange} {edit : Payload → BitRange → Payload}
    (h : s.editRange range edit = .ok (s', v)) : v = 0 := by
  obtain ⟨-, he⟩ | ⟨r, -, he⟩ := editRange_cases s range edit <;> cases he.symm.trans h
  rfl

theorem editOption_value {edit : Payload → BitRange → Payload}
    (h : s.editOption edit = .ok (s', v)) : v = 0 := by
  obtain ⟨-, he⟩ | ⟨d, -, -, he⟩ | ⟨d, r, -, -, he⟩ := editOption_cases s edit <;> cases he.symm.trans h
  rfl

theorem enumerate_value {select : Descriptor → Bool} (h : s.enumerate select = .ok (s', v)) : v = 0 := by
  obtain ⟨-, he⟩ | ⟨-, he⟩ := enumerate_cases s select <;> cases he.symm.trans h
  rfl

/-- A command that returns no scalar answers value 0 (R65). -/
theorem body_value {i : Instr} (h : body i s = .ok (s', v)) : v = 0 ∨ ReturnsScalar i := by
  cases i with
  | valof ch => exact .inr (.inl ⟨ch, rfl⟩)
  | chrof c => exact .inr (.inr (.inl ⟨c, rfl⟩))
  | csum => exact .inr (.inr (.inr (.inl rfl)))
  | chkb bo bi bs => exact .inr (.inr (.inr (.inr ⟨bo, bi, bs, rfl⟩)))
  | setb | clrb => exact .inl (editRange_value h)
  | addo | remo => exact .inl (editOption_value h)
  | enopt | avopt => exact .inl (enumerate_value h)
  | clr =>
    cases h
    exact .inl rfl
  | dec | enc =>
    simp only [body] at h
    split at h <;> cases h
    exact .inl rfl
  | bits =>
    simp only [body] at h
    split at h
    next =>
      split at h <;> cases h
      exact .inl rfl
    next => cases h

theorem body_valof_le {ch : Byte} (h : body (.valof ch) s = .ok (s', v)) : v.toNat ≤ 63 := by
  simp only [body] at h
  split at h <;> cases h
  next n hn =>
    obtain ⟨hlt, -⟩ := valueOf_some hn
    exact (Nat.mod_le n _).trans (Nat.le_of_lt_succ hlt)

theorem body_csum_le (h : body .csum s = .ok (s', v)) : v.toNat ≤ 9 := by
  simp only [body] at h
  split at h <;> cases h
  exact (Nat.mod_le _ _).trans (Nat.le_of_lt_succ (checksum_lt_ten s.x))

theorem body_chkb_le {bo bi bs : Int} (h : body (.chkb bo bi bs) s = .ok (s', v)) : v.toNat ≤ 1 := by
  simp only [body] at h
  split at h <;> cases h
  next r hr => cases checkBits s.x r <;> decide

end Values

/-- Settles O43: a failing command answers value 0, and a successful one the value its rule ends with. -/
theorem everyCommandDeliversOneResponse : Obligations.EveryCommandDeliversOneResponse := by
  intro i s
  obtain ⟨e, he, hexec⟩ | ⟨s', v, -, hbody, hexec, -, -, -, hresponses⟩ := exec_cases i s
  · exact ⟨s.answered e 0, e, 0, hexec, rfl, by simp [he]⟩
  · refine ⟨s'.answered .ok v, .ok, v, hexec, by rw [answered_responses, hresponses], fun hne => absurd rfl hne,
      (body_value hbody).resolve_left, ?_, ?_, ?_⟩
    · rintro - ch rfl
      exact body_valof_le hbody
    · rintro rfl
      exact body_csum_le hbody
    · rintro bo bi bs rfl
      exact body_chkb_le hbody

/-! ### Quoted lines -/

/-- The characters that end a word: a space, `;` and `,` (R72). -/
def wordEnds : List Byte := [0x20, 0x3B, 0x2C]

/-- The characters at which no word begins: those that end one, and the two quotes (R72). -/
def notWordStarts : List Byte := 0x22 :: 0x27 :: wordEnds

section Lex
variable {c : Byte} {cs seen rest : List Byte}

theorem lex_gap_cons (hc : c ∉ notWordStarts) : lex .gap (c :: cs) = lex (.word [c]) cs := by
  simp only [notWordStarts, wordEnds, List.mem_cons, List.not_mem_nil, or_false, not_or] at hc
  obtain ⟨hdouble, hsingle, hspace, hsemi, hcomma⟩ := hc
  rw [lex, if_neg hspace, if_neg hsemi, if_neg hcomma, if_neg hdouble, if_neg hsingle]

theorem lex_word_cons (hc : c ∉ wordEnds) : lex (.word seen) (c :: cs) = lex (.word (c :: seen)) cs := by
  simp only [wordEnds, List.mem_cons, List.not_mem_nil, or_false, not_or] at hc
  obtain ⟨hspace, hsemi, hcomma⟩ := hc
  rw [lex, if_neg hspace, if_neg hsemi, if_neg hcomma]

/-- Characters that do not end a word are collected until a space does. -/
theorem lex_word_append_space (hcs : ∀ c ∈ cs, c ∉ wordEnds) :
    lex (.word seen) (cs ++ 0x20 :: rest) = (lex .gap rest).map (Token.word (seen.reverse ++ cs) :: ·) := by
  induction cs generalizing seen with
  | nil => rw [List.nil_append, lex, if_pos rfl, List.append_nil]
  | cons c cs ih =>
    obtain ⟨hc, hcs⟩ := List.forall_mem_cons.mp hcs
    rw [List.cons_append, lex_word_cons hc, ih hcs, List.reverse_cons, ← List.append_cons]

/-- Everything up to the next double quote is text (log 6). -/
theorem lex_text_append_quote (hcs : 0x22 ∉ cs) :
    lex (.text seen) (cs ++ 0x22 :: rest) = (lex .gap rest).map (Token.text (seen.reverse ++ cs) :: ·) := by
  induction cs generalizing seen with
  | nil => rw [List.nil_append, lex, if_pos rfl, List.append_nil]
  | cons c cs ih =>
    obtain ⟨hc, hcs⟩ := List.ne_and_not_mem_of_not_mem_cons hcs
    rw [List.cons_append, lex, if_neg hc.symm, ih hcs, List.reverse_cons, ← List.append_cons]

end Lex

/-- A line of a word, a space and a quoted text stands for what the word and the text stand for. -/
theorem assembleLine_quoted {c : Byte} {cs text : List Byte} (hc : c ∉ notWordStarts)
    (hcs : ∀ c ∈ cs, c ∉ wordEnds) (htext : 0x22 ∉ text) :
    assembleLine (c :: cs ++ 0x20 :: ([0x22] ++ text ++ [0x22])) = linesOf [.word (c :: cs), .text text] := by
  have hquoted : lex .gap ([0x22] ++ text ++ [0x22]) = some [.text text] := by
    change lex (.text []) (text ++ [0x22]) = _
    rw [lex_text_append_quote htext]
    rfl
  rw [assembleLine, List.cons_append, lex_gap_cons hc, lex_word_append_space hcs, hquoted]
  rfl

/-- Settles O48: each expansion is `linesOf` on the line's word and its text. -/
theorem pseudoCommandsExpandAsListed : Obligations.PseudoCommandsExpandAsListed := by
  intro text htext
  refine ⟨?_, ?_, ?_, ?_, by decide, by decide⟩
  · exact assembleLine_quoted (c := 0x2E) (cs := ascii "str") (by decide) (by decide) htext
  · exact assembleLine_quoted (c := 0x4E) (cs := ascii "EW") (by decide) (by decide) htext
  · exact assembleLine_quoted (c := 0x4F) (cs := ascii "PT+") (by decide) (by decide) htext
  · exact assembleLine_quoted (c := 0x4F) (cs := ascii "PT-") (by decide) (by decide) htext

end Sys2Proof.Proofs

/-! # Scope: the Symbol Table functions and the commands that answer from them -/

namespace Sys2Proof.Proofs

open Sys2Proof.Machine Sys2Proof.Laws

/-! ### The functions -/

section Table
variable {sym : Alphabet} {ch : Byte} {v : Nat}

/-- `char_of(value_of(ch)) = ch` (R91). -/
theorem charOf_of_valueOf (h : valueOf sym ch = some v) : v < 64 ∧ charOf sym v = some ch := by
  obtain ⟨hv, rfl⟩ := valueOf_some h
  exact ⟨hv, charOf_lt hv⟩

/-- The digits have the values 0 to 9 (R26, R90). -/
theorem valueOf_digit (h : sym.WF) {d : Nat} (hd : d < 10) :
    valueOf sym (BitVec.ofNat 8 (0x30 + d)) = some d := by
  rw [← symbol_digit h hd]
  exact valueOf_symbol h.1 _

theorem charOf_digit (h : sym.WF) {d : Nat} (hd : d < 10) :
    charOf sym d = some (BitVec.ofNat 8 (0x30 + d)) := by
  rw [charOf_lt (by omega), symbol_digit h hd]

/-- Symbols are printable (R8), so a code outside 0x21..0x7E is none. -/
theorem valueOf_unprintable (h : sym.WF) (hch : ch.toNat < 0x21 ∨ 0x7E < ch.toNat) :
    valueOf sym ch = none := by
  rw [valueOf_eq_none]
  intro hmem
  obtain ⟨-, -, hprintable⟩ := h
  obtain ⟨hlow, hhigh, -⟩ := hprintable ch hmem
  omega

end Table

/-- Settles O13: a symbol's index is its only value, and the constraints on the alphabet leave `DASH` and the
codes that are not printable without one. -/
theorem symbolTableIsABijection : Obligations.SymbolTableIsABijection := by
  intro sym h
  exact ⟨fun v => ⟨charOf_lt v.isLt, valueOf_symbol h.1 v.isLt⟩,
    fun _ => charOf_ge,
    fun _ _ => charOf_of_valueOf,
    fun _ => valueOf_eq_none.mpr,
    fun _ hd => ⟨valueOf_digit h hd, charOf_digit h hd⟩,
    valueOf_eq_none.mpr (dash_not_mem h),
    valueOf_unprintable h (.inl (by decide)),
    fun _ => valueOf_unprintable h⟩

/-! ### The commands -/

section Commands
variable {s s' : State} {ch c : Byte} {v : Nat}

theorem body_valof_some (h : valueOf s.params.alphabet ch = some v) :
    body (.valof ch) s = .ok (s, BitVec.ofNat 8 v) := by
  simp only [body, h]

theorem body_valof_none (h : valueOf s.params.alphabet ch = none) :
    body (.valof ch) s = .error .notFound := by
  simp only [body, h]

theorem body_chrof_some (h : charOf s.params.alphabet v = some c) : body (.chrof v) s = .ok (s, c) := by
  simp only [body, h]

theorem body_chrof_none (h : charOf s.params.alphabet v = none) :
    body (.chrof v) s = .error .notFound := by
  simp only [body, h]

/-- A symbol command ends with an answer that the parameters alone decide, and writes nothing (R94). -/
theorem finish_symbolCommand {i : Instr} (hi : (∃ ch, i = .valof ch) ∨ ∃ v, i = .chrof v)
    (hparams : s.params = s'.params) :
    ∃ st w, s.finish (body i s) = s.answered st w ∧ s'.finish (body i s') = s'.answered st w := by
  obtain ⟨ch, rfl⟩ | ⟨v, rfl⟩ := hi
  · cases h : valueOf s.params.alphabet ch with
    | none =>
      exact ⟨_, _, by rw [body_valof_none h, finish_error], by rw [body_valof_none (hparams ▸ h), finish_error]⟩
    | some v =>
      exact ⟨_, _, by rw [body_valof_some h, finish_ok], by rw [body_valof_some (hparams ▸ h), finish_ok]⟩
  · cases h : charOf s.params.alphabet v with
    | none =>
      exact ⟨_, _, by rw [body_chrof_none h, finish_error], by rw [body_chrof_none (hparams ▸ h), finish_error]⟩
    | some c =>
      exact ⟨_, _, by rw [body_chrof_some h, finish_ok], by rw [body_chrof_some (hparams ▸ h), finish_ok]⟩

end Commands

/-- Settles O14: on a live engine VALOF ends as `valueOf` does. -/
theorem valofAnswersTheSymbolValue : Obligations.ValofAnswersTheSymbolValue := by
  refine ⟨fun ch => decode_packWord .valof 0 0 ch, fun s ch hwf => ⟨fun hlive => ⟨?_, ?_⟩,
    deadEngineAnswersOnlyTheCatalogStatus _ s⟩⟩
  · rintro v rfl
    exact exec_of_body_ok hlive (body_valof_some (valueOf_symbol hwf.1 v.isLt))
  · intro hch
    exact exec_of_body_error hlive (body_valof_none (valueOf_eq_none.mpr hch))

/-- Settles O15: on a live engine CHROF ends as `charOf` does. -/
theorem chrofAnswersTheSymbol : Obligations.ChrofAnswersTheSymbol := by
  refine ⟨fun v => decode_packWord .chrof 0 0 v, fun s => ⟨fun hlive => ⟨?_, ?_⟩,
    fun v => deadEngineAnswersOnlyTheCatalogStatus _ s⟩⟩
  · intro v
    exact exec_of_body_ok hlive (body_chrof_some (charOf_lt v.isLt))
  · intro v hv
    exact exec_of_body_error hlive (body_chrof_none (charOf_ge hv))

/-- Settles O16: a live engine answers from the parameters, a dead one from `ENG` alone. -/
theorem symbolCommandsSeeOnlyTheTable : Obligations.SymbolCommandsSeeOnlyTheTable := by
  intro i hi s s' heng hparams
  have hdead : ∀ t, RefusedWhenDead i t := deadEngineAnswersOnlyTheCatalogStatus i
  refine ⟨?_, hdead s⟩
  cases h : s.eng with
  | ready =>
    obtain ⟨st, w, hs, hs'⟩ := finish_symbolCommand hi hparams
    exact ⟨st, w, by rw [exec_ready h, hs], by rw [exec_ready (heng ▸ h), hs']⟩
  | deadUnavailable => exact ⟨_, _, (hdead s).1 h, (hdead s').1 (heng ▸ h)⟩
  | deadMalformed => exact ⟨_, _, (hdead s).2 h, (hdead s').2 (heng ▸ h)⟩

end Sys2Proof.Proofs

/-! # Scope: CLR, and the code strings DEC reads and ENC writes -/

namespace Sys2Proof.Proofs

open Sys2Proof.Machine Sys2Proof.Laws

/-! ### Payloads and code strings -/

section Strings
variable {sym : Alphabet} {x : Payload} {y : Nat → Fin 64} {c : Byte}

/-- A payload in the alphabet is determined by its values. -/
theorem payloadOf_eq_of_holdsValues (h : HoldsValues x y) : payloadOf y = x := by
  refine Vector.ext fun j hj => BitVec.eq_of_toNat_eq ?_
  exact (holdsValues_payloadOf y ⟨j, hj⟩).trans (h ⟨j, hj⟩).symm

/-- The groups D and E of a legacy string are 0 (R69, R105). -/
theorem payloadOf_legacyValues_high (y : Nat → Fin 64) {i : Fin 24} (hi : 12 ≤ i.val) :
    (payloadOf (legacyValues y))[i] = 0 := by
  have hzero : legacyValues y i = 0 := if_neg (Nat.not_lt.mpr hi)
  have hval := holdsValues_payloadOf (legacyValues y) i
  rw [hzero] at hval
  exact BitVec.eq_of_toNat_eq hval

theorem checkCharacter_mem (h : sym.WF) (y : Nat → Fin 64) : checkCharacter y ∈ sym.toList := by
  have hvalue : valueOf sym (checkCharacter y) = some (checkDigit y) := valueOf_digit h (checkDigit_lt y)
  exact valueOf_isSome.mp (Option.isSome_of_eq_some hvalue)

theorem codeGroup_congr {z : Nat → Fin 64} {k : Nat} (h : ∀ j < 6, y (k + j) = z (k + j)) :
    codeGroup sym y k = codeGroup sym z k := by
  unfold codeGroup
  congr 1
  funext j
  exact congrArg (sym[·]) (h j j.isLt)

/-- Six zero symbols are written `000000` (R105). -/
theorem codeGroup_zero (h : sym.WF) {k : Nat} (hy : ∀ j < 6, y (k + j) = 0) :
    codeGroup sym y k = List.replicate 6 0x30 := by
  have hzero : sym[(0 : Fin 64)] = 0x30 := symbol_digit h (d := 0) (by decide)
  rw [codeGroup_congr (z := fun _ => 0) hy, codeGroup, ← hzero]
  exact List.ofFn_const 6 _

/-- The extension of a legacy string is the full form of its values, with the same check character
(R105). -/
theorem legacyCode_append_zeroGroups (h : sym.WF) (y : Nat → Fin 64) (c : Byte) :
    legacyCode sym y c ++ ascii "-000000-000000" = fullCode sym (legacyValues y) c := by
  have hlow : ∀ k, k + 6 ≤ 12 → codeGroup sym (legacyValues y) k = codeGroup sym y k :=
    fun k hk => codeGroup_congr fun j hj => if_pos (by omega)
  have hhigh : ∀ k, 12 ≤ k → codeGroup sym (legacyValues y) k = List.replicate 6 0x30 :=
    fun k hk => codeGroup_zero h fun j _ => if_neg (by omega)
  have hzeros : ascii "-000000-000000" =
      [Config.dash] ++ List.replicate 6 0x30 ++ [Config.dash] ++ List.replicate 6 0x30 := by decide
  rw [fullCode, hlow 0 (by decide), hlow 6 (by decide), hhigh 12 (by decide), hhigh 18 (by decide), hzeros]
  simp only [legacyCode, List.append_assoc]

/-- The check character of a full-form string stands at position 14 and nowhere else (R42, R68). -/
theorem getElem?_fullCode_ne_14 (sym : Alphabet) (y : Nat → Fin 64) (c c' : Byte) {j : Nat} (hj : j ≠ 14) :
    (fullCode sym y c)[j]? = (fullCode sym y c')[j]? := by
  obtain ⟨hdata, hdash, -⟩ := getElem?_fullCode sym y c
  obtain ⟨hdata', hdash', -⟩ := getElem?_fullCode sym y c'
  by_cases hlt : j < 29
  · obtain hd | ⟨-, rfl | ⟨i, hi, rfl⟩⟩ := fullPosition_cases hlt
    · rw [hdash j hd, hdash' j hd]
    · exact absurd rfl hj
    · rw [hdata i hi, hdata' i hi]
  · rw [List.getElem?_eq_none (by rw [length_fullCode]; omega),
      List.getElem?_eq_none (by rw [length_fullCode]; omega)]

end Strings

/-! ### The commands on a live engine -/

section Commands
variable {s : State} {y : Nat → Fin 64} {c : Byte}

theorem exec_dec_of_decodes {x : Payload} (hlive : s.eng = .ready)
    (h : decodeString s.params.alphabet s.str = some x) :
    exec .dec s = .next ({ s with x := x }.answered .ok 0) :=
  exec_of_body_ok hlive (by simp only [body, h])

/-- DEC loads the values of a full-form string, whatever symbol stands at the check position (R102, R104). -/
theorem exec_dec_fullCode (hwf : s.params.alphabet.WF) (hlive : s.eng = .ready)
    (hc : c ∈ s.params.alphabet.toList) (hstr : s.str = fullCode s.params.alphabet y c) :
    exec .dec s = .next ({ s with x := payloadOf y }.answered .ok 0) :=
  exec_dec_of_decodes hlive (hstr ▸ decodeString_fullCode hwf.1 hc)

theorem exec_dec_legacyCode (hwf : s.params.alphabet.WF) (hlive : s.eng = .ready)
    (hc : c ∈ s.params.alphabet.toList) (hstr : s.str = legacyCode s.params.alphabet y c) :
    exec .dec s = .next ({ s with x := payloadOf (legacyValues y) }.answered .ok 0) :=
  exec_dec_of_decodes hlive (hstr ▸ decodeString_legacyCode hwf.1 hc)

theorem exec_dec_invalid (hlive : s.eng = .ready) (hfull : ¬ FullForm s.params.alphabet s.str)
    (hlegacy : ¬ LegacyForm s.params.alphabet s.str) : exec .dec s = .next (s.answered .invalidCode 0) :=
  exec_of_body_error hlive (by simp only [body, decodeString_none hfull hlegacy])

/-- ENC writes the full form of the values the payload holds (R107). -/
theorem exec_enc_of_holdsValues (hwf : s.params.alphabet.WF) (hlive : s.eng = .ready)
    (hx : HoldsValues s.x y) :
    exec .enc s =
      .next ({ s with str := fullCode s.params.alphabet y (checkCharacter y) }.answered .ok 0) := by
  have hin : InAlphabet s.x := inAlphabet_of_holdsValues hx
  rw [← encodeString_eq_fullCode hwf hx hin]
  exact exec_of_body_ok hlive (dif_pos hin)

end Commands

/-! ### The statements -/

/-- Settles O17: the rule of CLR has no failing case, and the payload it writes is all zero. -/
theorem clrZeroesThePayload : Obligations.ClrZeroesThePayload := by
  refine ⟨decode_packWord .clr 0 0 0, fun s => ⟨fun hlive => ?_, deadEngineAnswersOnlyTheCatalogStatus _ s⟩⟩
  exact ⟨Vector.replicate 24 0, fun i => Vector.getElem_replicate i.isLt, exec_of_body_ok hlive rfl⟩

/-- Settles O18: one clause for each form and one for every other string. -/
theorem decLoadsExactlyTheCodeStrings : Obligations.DecLoadsExactlyTheCodeStrings := by
  refine ⟨decode_packWord .dec 0 0 0, fun s hwf => ⟨fun hlive => ⟨fun y c hc => ⟨?_, ?_⟩, ?_⟩,
    deadEngineAnswersOnlyTheCatalogStatus _ s⟩⟩
  · exact exec_dec_fullCode hwf hlive hc
  · exact exec_dec_legacyCode hwf hlive hc
  · exact exec_dec_invalid hlive

/-- Settles O19: the extension is the full form of the legacy string's values. -/
theorem legacyStringDecodesAsItsExtension : Obligations.LegacyStringDecodesAsItsExtension := by
  rintro s hwf hlive ⟨y, c, hc, hstr⟩
  have hext : s.str ++ ascii "-000000-000000" = fullCode s.params.alphabet (legacyValues y) c := by
    rw [hstr, legacyCode_append_zeroGroups hwf]
  exact ⟨payloadOf (legacyValues y), fun _ => payloadOf_legacyValues_high y,
    exec_dec_legacyCode hwf hlive hc hstr, exec_dec_fullCode hwf hlive hc hext⟩

/-- Settles O20: the alphabet check of R108 decides between the code string and `NotFound`. -/
theorem encWritesTheFullCode : Obligations.EncWritesTheFullCode := by
  refine ⟨decode_packWord .enc 0 0 0, fun s hwf => ⟨fun hlive => ⟨fun y => ?_, fun hout => ?_⟩,
    deadEngineAnswersOnlyTheCatalogStatus _ s⟩⟩
  · exact exec_enc_of_holdsValues hwf hlive
  · exact exec_of_body_error hlive (body_notFound (by simp) (not_inAlphabet_iff.mpr hout))

/-- Settles O21: ENC's check digit is a symbol, so DEC reads back the values the payload holds. -/
theorem encThenDecRestoresThePayload : Obligations.EncThenDecRestoresThePayload := by
  intro s hwf hlive hin
  obtain ⟨y, hy⟩ := holdsValues_of_inAlphabet hin
  have hx : payloadOf y = s.x := payloadOf_eq_of_holdsValues hy
  refine ⟨_, _, exec_enc_of_holdsValues hwf hlive hy,
    exec_dec_fullCode hwf hlive (checkCharacter_mem hwf y) rfl, hx, ?_⟩
  rw [hx]
  rfl

/-- Settles O22: DEC loads the values of the string, and ENC writes their full form with the check digit. -/
theorem decThenEncRecomputesTheCheckDigit : Obligations.DecThenEncRecomputesTheCheckDigit := by
  intro s y c hwf hlive hc
  obtain ⟨-, -, hcheck⟩ := getElem?_fullCode s.params.alphabet y (checkCharacter y)
  refine ⟨fun hstr => ?_, fun hstr => ?_⟩
  · have hrest : ∀ j, j ≠ 14 → (fullCode s.params.alphabet y (checkCharacter y))[j]? = s.str[j]? := by
      intro j hj
      rw [hstr]
      exact getElem?_fullCode_ne_14 _ _ _ _ hj
    exact ⟨_, _, exec_dec_fullCode hwf hlive hc hstr,
      exec_enc_of_holdsValues hwf hlive (holdsValues_payloadOf y), length_fullCode _ _ _, hrest, hcheck⟩
  · exact ⟨_, _, exec_dec_legacyCode hwf hlive hc hstr,
      exec_enc_of_holdsValues hwf hlive (holdsValues_payloadOf _), rfl⟩

end Sys2Proof.Proofs

/-! # Scope: the check digit and CSUM -/

namespace Sys2Proof.Proofs

open Sys2Proof.Machine Sys2Proof.Laws

/-! ### Terms, and the result they add up to -/

section Terms
variable {i b : Nat}

theorem checksumTerm_even (hi : i % 2 = 0) : checksumTerm i b = digsum (2 * b) := if_pos hi

theorem checksumTerm_odd (hi : i % 2 = 1) : checksumTerm i b = digsum b := if_neg (by omega)

theorem checksumTerm_even_le (hi : i % 2 = 0) (hb : b ≤ 63) : checksumTerm i b ≤ 17 :=
  (checksumTerm_even hi).trans_le (digsum_double_le_17 hb)

theorem checksumTerm_odd_le (hi : i % 2 = 1) (hb : b ≤ 63) : checksumTerm i b ≤ 14 :=
  (checksumTerm_odd hi).trans_le (digsum_le_14 hb)

/-- The bound of R125 for either parity. -/
theorem checksumTerm_le (hb : b ≤ 63) : checksumTerm i b ≤ if i % 2 = 0 then 17 else 14 := by
  split
  next hi => exact checksumTerm_even_le hi hb
  next hi => exact checksumTerm_odd_le (by omega) hb

end Terms

section Results
variable {x y : Payload}

/-- Twelve even and twelve odd positions: `12 * 17 + 12 * 14 = 372` (R125). -/
theorem checksumResult_le (hx : InAlphabet x) : checksumResult x ≤ 372 := by
  rw [checksumResult_eq_sum]
  calc ∑ i : Fin 24, checksumTerm i x[i].toNat
      ≤ ∑ i : Fin 24, if i.val % 2 = 0 then 17 else 14 := Finset.sum_le_sum fun i _ => checksumTerm_le (hx i)
    _ = 372 := by decide

/-- The check digit sees `result` modulo 10 only (R126). -/
theorem checksum_congr (h : checksumResult x % 10 = checksumResult y % 10) : checksum x = checksum y := by
  rw [checksum, checksum, h]

end Results

/-! ### Writing one byte of the payload -/

/-- Writing one byte exchanges its term for the new one. -/
theorem checksumResult_set (x : Payload) (i : Fin 24) (b : Byte) :
    checksumResult (x.set i b) + checksumTerm i x[i].toNat =
      checksumResult x + checksumTerm i b.toNat := by
  have hsame : (x.set i b)[i] = b := Vector.getElem_set_self i.isLt
  have hother : ∑ j ∈ Finset.univ.erase i, checksumTerm j (x.set i b)[j].toNat =
      ∑ j ∈ Finset.univ.erase i, checksumTerm j x[j].toNat := by
    refine Finset.sum_congr rfl fun j hj => ?_
    have hne : i.val ≠ j.val := fun h => Finset.ne_of_mem_erase hj (Fin.ext h.symm)
    have hkept : (x.set i b)[j] = x[j] := Vector.getElem_set_ne i.isLt j.isLt hne
    rw [hkept]
  rw [checksumResult_eq_sum, checksumResult_eq_sum, ← Finset.add_sum_erase _ _ (Finset.mem_univ i),
    ← Finset.add_sum_erase _ _ (Finset.mem_univ i), hother, hsame]
  omega

/-- Two values of one byte collide when their terms agree modulo 10 (R126). -/
theorem checksum_set_congr {x : Payload} {i : Fin 24} {b c : Byte}
    (h : checksumTerm i b.toNat % 10 = checksumTerm i c.toNat % 10) :
    checksum (x.set i b) = checksum (x.set i c) := by
  have hb := checksumResult_set x i b
  have hc := checksumResult_set x i c
  exact checksum_congr (by omega)

/-- The doubled 14 has the digit sum 10 (R126). -/
theorem checksumTerm_even_zero_fourteen {i : Nat} (hi : i % 2 = 0) :
    checksumTerm i (0 : Byte).toNat % 10 = checksumTerm i (14 : Byte).toNat % 10 := by
  rw [checksumTerm_even hi, checksumTerm_even hi]
  decide

/-- `63` and `0` add 9 in either order at positions 22 and 23: `digsum 126 = digsum 63` (R124). -/
theorem checksum_exchange_last_two (x : Payload) :
    checksum ((x.set 22 63).set 23 0) = checksum ((x.set 22 0).set 23 63) := by
  have hlast : ∀ b : Byte, (x.set 22 b)[(23 : Fin 24)] = x[(23 : Fin 24)] := fun _ =>
    Vector.getElem_set_ne (by decide) (by decide) (by decide)
  have hterms : checksumTerm 22 (63 : Byte).toNat + checksumTerm 23 (0 : Byte).toNat =
      checksumTerm 22 (0 : Byte).toNat + checksumTerm 23 (63 : Byte).toNat := by decide
  have h63 := checksumResult_set x 22 63
  have h0 := checksumResult_set x 22 0
  have h63_0 := checksumResult_set (x.set 22 63) 23 0
  have h0_63 := checksumResult_set (x.set 22 0) 23 63
  rw [hlast] at h63_0 h0_63
  refine checksum_congr (congrArg (· % 10) ?_)
  simp only [Fin.coe_ofNat_eq_mod, Nat.reduceMod] at h63 h0 h63_0 h0_63
  omega

/-! ### The command on a live engine -/

section Command
variable {s : State}

theorem exec_csum_of_holdsValues {y : Nat → Fin 64} (hlive : s.eng = .ready) (hx : HoldsValues s.x y) :
    exec .csum s = .next (s.answered .ok (BitVec.ofNat 8 (checkDigit y))) := by
  rw [← checksum_eq_checkDigit hx]
  exact exec_of_body_ok hlive (if_pos (inAlphabet_of_holdsValues hx))

theorem exec_csum_outOfAlphabet (hlive : s.eng = .ready) (hx : OutOfAlphabet s.x) :
    exec .csum s = .next (s.answered .notFound 0) :=
  exec_of_body_error hlive (body_notFound (by simp) (not_inAlphabet_iff.mpr hx))

end Command

/-! ### The statements -/

/-- Settles O23: the alphabet check of R120 decides between the check digit and `NotFound`. -/
theorem csumAnswersTheCheckDigit : Obligations.CsumAnswersTheCheckDigit := by
  refine ⟨decode_packWord .csum 0 0 0, fun s => ⟨fun hlive => ⟨fun y => ?_, ?_⟩,
    deadEngineAnswersOnlyTheCatalogStatus _ s⟩⟩
  · exact exec_csum_of_holdsValues hlive
  · exact exec_csum_outOfAlphabet hlive

/-- Settles O24: the digit sums below 64 and below 127 bound the terms, and these bound `result`. -/
theorem checksumStaysInItsRange : Obligations.ChecksumStaysInItsRange := by
  intro x sym hwf hx
  refine ⟨fun i hi => ⟨checksumTerm_even_le hi (hx i), ?_⟩, fun i hi => checksumTerm_odd_le hi (hx i),
    checksumResult_le hx, Nat.le_of_lt_succ (checksum_lt_ten x), charOf_digit hwf (checksum_lt_ten x)⟩
  have hi := hx i
  omega

/-- Settles O25: the check digit sees one byte through its term modulo 10. -/
theorem checkDigitsCollide : Obligations.CheckDigitsCollide :=
  ⟨fun _ _ _ _ => checksum_set_congr,
    fun _ _ hi => checksum_set_congr (checksumTerm_even_zero_fourteen hi),
    checksum_exchange_last_two⟩

/-- Settles O26: a payload holds values of the alphabet or has a byte outside it, and each decides the
answer. -/
theorem csumDependsOnThePayloadAlone : Obligations.CsumDependsOnThePayloadAlone := by
  intro s s' hlive hlive' hx
  by_cases hin : InAlphabet s.x
  · obtain ⟨y, hy⟩ := holdsValues_of_inAlphabet hin
    exact ⟨_, _, exec_csum_of_holdsValues hlive hy, exec_csum_of_holdsValues hlive' (hx ▸ hy)⟩
  · have hout : OutOfAlphabet s.x := not_inAlphabet_iff.mp hin
    exact ⟨_, _, exec_csum_outOfAlphabet hlive hout, exec_csum_outOfAlphabet hlive' (hx ▸ hout)⟩

end Sys2Proof.Proofs

/-! # Scope: the bit-field commands SETB, CLRB and CHKB -/

namespace Sys2Proof.Proofs

open Sys2Proof.Machine Sys2Proof.Laws

/-! ### Words of format R -/

/-- No field of a format R word must be zero, so each such word is a command (R60). -/
theorem decode_packWord_of_format_r {o : Opcode} (ho : o.format = .r) (a b c : Byte) :
    decode (packWord o.code a b c) = .ok (o.assemble a b c) := by
  rw [decode_packWord, ho]
  rfl

/-! ### Bits of a valid range -/

section Ranges
variable {bo bi bs : Int} {x y : Payload}

theorem allSet_of_setsExactly (hvalid : RangeIsValid bo bi bs) (h : SetsExactly bo bi bs x y) :
    AllSet bo bi bs y := by
  obtain ⟨-, ⟨-, hbi⟩, -⟩ := hvalid
  intro i k hik
  have hk : k < 8 := by
    obtain ⟨-, -, htop⟩ := hik
    omega
  exact (h i k hk).mpr (.inl hik)

/-- The highest bit of a valid range lies in it, so clearing the range leaves a 0 there. -/
theorem not_allSet_of_clearsExactly (hvalid : RangeIsValid bo bi bs) (h : ClearsExactly bo bi bs x y) :
    ¬ AllSet bo bi bs y := by
  obtain ⟨r, -, hlo, hhi, -, hin⟩ := bitRange?_valid hvalid
  have htop : InRange bo bi bs r.index r.hi := (hin _ _).mpr ⟨rfl, hlo, le_rfl⟩
  intro hall
  obtain ⟨hout, -⟩ := (h r.index r.hi (by omega)).mp (hall _ _ htop)
  exact hout htop

theorem getLsbD_eq_of_setsExactly (h : SetsExactly bo bi bs x y) {i : Fin 24} {k : Nat} (hk : k < 8)
    (hout : ¬ InRange bo bi bs i k) : y[i].getLsbD k = x[i].getLsbD k :=
  Bool.eq_iff_iff.mpr ((h i k hk).trans (or_iff_right hout))

theorem getLsbD_eq_of_clearsExactly (h : ClearsExactly bo bi bs x y) {i : Fin 24} {k : Nat} (hk : k < 8)
    (hout : ¬ InRange bo bi bs i k) : y[i].getLsbD k = x[i].getLsbD k :=
  Bool.eq_iff_iff.mpr ((h i k hk).trans (and_iff_right hout))

end Ranges

/-! ### The commands on a live engine -/

section Commands
variable {s : State} {bo bi bs : Int}

theorem exec_setb_valid (hlive : s.eng = .ready) (hvalid : RangeIsValid bo bi bs) :
    ∃ y, SetsExactly bo bi bs s.x y ∧ exec (.setb bo bi bs) s = .next ({ s with x := y }.answered .ok 0) := by
  obtain ⟨r, hr, hlo, hhi, -, hin⟩ := bitRange?_valid hvalid
  have hbody : body (.setb bo bi bs) s = .ok ({ s with x := setBits s.x r }, 0) := by
    rw [body, hr, State.editRange]
  exact ⟨_, setsExactly_setBits ⟨hlo, hhi⟩ hin, exec_of_body_ok hlive hbody⟩

theorem exec_clrb_valid (hlive : s.eng = .ready) (hvalid : RangeIsValid bo bi bs) :
    ∃ y, ClearsExactly bo bi bs s.x y ∧ exec (.clrb bo bi bs) s = .next ({ s with x := y }.answered .ok 0) := by
  obtain ⟨r, hr, hlo, hhi, -, hin⟩ := bitRange?_valid hvalid
  have hbody : body (.clrb bo bi bs) s = .ok ({ s with x := clearBits s.x r }, 0) := by
    rw [body, hr, State.editRange]
  exact ⟨_, clearsExactly_clearBits ⟨hlo, hhi⟩ hin, exec_of_body_ok hlive hbody⟩

/-- CHKB answers one truth value, that of `AllSet` (R133). -/
theorem exec_chkb_valid (hlive : s.eng = .ready) (hvalid : RangeIsValid bo bi bs) :
    ∃ b : Bool, (b = true ↔ AllSet bo bi bs s.x) ∧
      exec (.chkb bo bi bs) s = .next (s.answered .ok (if b then 1 else 0)) := by
  obtain ⟨r, hr, hlo, hhi, -, hin⟩ := bitRange?_valid hvalid
  have hbody : body (.chkb bo bi bs) s = .ok (s, if checkBits s.x r then 1 else 0) := by
    simp only [body, hr]
  exact ⟨_, checkBits_eq_allSet ⟨hlo, hhi⟩ hin, exec_of_body_ok hlive hbody⟩

theorem exec_chkb_allSet (hlive : s.eng = .ready) (hvalid : RangeIsValid bo bi bs)
    (hall : AllSet bo bi bs s.x) : exec (.chkb bo bi bs) s = .next (s.answered .ok 1) := by
  obtain ⟨b, hb, hexec⟩ := exec_chkb_valid hlive hvalid
  rw [hexec, if_pos (hb.mpr hall)]

theorem exec_chkb_not_allSet (hlive : s.eng = .ready) (hvalid : RangeIsValid bo bi bs)
    (hall : ¬ AllSet bo bi bs s.x) : exec (.chkb bo bi bs) s = .next (s.answered .ok 0) := by
  obtain ⟨b, hb, hexec⟩ := exec_chkb_valid hlive hvalid
  rw [hexec, if_neg (mt hb.mp hall)]

/-- The three commands share one validation, and a triple that fails it writes nothing (R130). -/
theorem exec_invalidRange (hlive : s.eng = .ready) (hinvalid : ¬ RangeIsValid bo bi bs) {i : Instr}
    (hi : i ∈ [Instr.setb bo bi bs, .clrb bo bi bs, .chkb bo bi bs]) :
    exec i s = .next (s.answered .invalidRange 0) := by
  have hnone : bitRange? bo bi bs = none := bitRange?_none hinvalid
  have hbody : body i s = .error .invalidRange := by
    simp only [List.mem_cons, List.not_mem_nil, or_false] at hi
    obtain rfl | rfl | rfl := hi <;> simp only [body, hnone, State.editRange]
  exact exec_of_body_error hlive hbody

end Commands

/-! ### The statements -/

/-- Settles O27: the validation of R130 decides between the write and `InvalidRange`. -/
theorem setbSetsExactlyTheRange : Obligations.SetbSetsExactlyTheRange := by
  refine ⟨fun a b c => ?_, fun s bo bi bs => ⟨fun hlive => ⟨exec_setb_valid hlive, fun hinvalid => ?_⟩,
    deadEngineAnswersOnlyTheCatalogStatus _ s⟩⟩
  · simp only [← sext8_eq_toInt]
    exact decode_packWord_of_format_r (o := .setb) rfl a b c
  · exact exec_invalidRange hlive hinvalid (by simp)

/-- Settles O28: the validation of R130 decides between the write and `InvalidRange`. -/
theorem clrbClearsExactlyTheRange : Obligations.ClrbClearsExactlyTheRange := by
  refine ⟨fun a b c => ?_, fun s bo bi bs => ⟨fun hlive => ⟨exec_clrb_valid hlive, fun hinvalid => ?_⟩,
    deadEngineAnswersOnlyTheCatalogStatus _ s⟩⟩
  · simp only [← sext8_eq_toInt]
    exact decode_packWord_of_format_r (o := .clrb) rfl a b c
  · exact exec_invalidRange hlive hinvalid (by simp)

/-- Settles O29: an invalid range is told apart from a range with a 0 in it by its status. -/
theorem chkbTestsEveryBitOfTheRange : Obligations.ChkbTestsEveryBitOfTheRange := by
  refine ⟨fun a b c => ?_, fun s bo bi bs => ⟨fun hlive => ⟨fun hvalid => ?_, fun hinvalid => ?_⟩,
    deadEngineAnswersOnlyTheCatalogStatus _ s⟩⟩
  · simp only [← sext8_eq_toInt]
    exact decode_packWord_of_format_r (o := .chkb) rfl a b c
  · exact ⟨exec_chkb_allSet hlive hvalid, exec_chkb_not_allSet hlive hvalid⟩
  · exact exec_invalidRange hlive hinvalid (by simp)

/-- Settles O30: what SETB and CLRB write bit by bit is what CHKB tests; the engine stays live between the
two commands. -/
theorem checkSeesWhatSetAndClearDid : Obligations.CheckSeesWhatSetAndClearDid := by
  refine fun s bo bi bs hlive => ⟨fun hvalid => ⟨?_, ?_⟩, fun hinvalid i => exec_invalidRange hlive hinvalid⟩
  · obtain ⟨y, hy, hexec⟩ := exec_setb_valid hlive hvalid
    exact ⟨_, hexec, exec_chkb_allSet hlive hvalid (allSet_of_setsExactly hvalid hy),
      fun i k => getLsbD_eq_of_setsExactly hy⟩
  · obtain ⟨y, hy, hexec⟩ := exec_clrb_valid hlive hvalid
    exact ⟨_, hexec, exec_chkb_not_allSet hlive hvalid (not_allSet_of_clearsExactly hvalid hy),
      fun i k => getLsbD_eq_of_clearsExactly hy⟩

end Sys2Proof.Proofs

/-! # Scope: the option commands ADDO, REMO, ENOPT and AVOPT -/

namespace Sys2Proof.Proofs

open Sys2Proof.Machine Sys2Proof.Laws

/-! ### Editing the payload through an option -/

section Edits
variable {s : State} {d : Descriptor} {edit : Payload → BitRange → Payload} {i : Instr}

theorem editOption_of_invalid (hd : s.namedOption = .ok d) (hinvalid : ¬ DescriptorIsValid d) :
    s.editOption edit = .error .invalidRange := by
  have hnone : descriptorRange? d = none := bitRange?_none hinvalid
  simp only [State.editOption, hd, hnone, State.editRange]

theorem editOption_of_absent (h : ∀ d ∈ s.params.catalog, d.name ≠ s.str) :
    s.editOption edit = .error .optionNotFound := by
  simp only [State.editOption, namedOption_absent h]

/-- ADDO and REMO differ only in the edit they make (R152, R153). -/
theorem body_addo_or_remo (hi : i ∈ [Instr.addo, .remo]) (s : State) : ∃ edit, body i s = s.editOption edit := by
  simp only [List.mem_cons, List.not_mem_nil, or_false] at hi
  obtain rfl | rfl := hi <;> exact ⟨_, rfl⟩

theorem exec_addo_valid (hlive : s.eng = .ready) (hd : s.namedOption = .ok d) (hvalid : DescriptorIsValid d) :
    ∃ y, SetsExactly d.byteOffset.toInt d.bitOffset.toInt d.bitSize.toInt s.x y ∧
      exec .addo s = .next ({ s with x := y }.answered .ok 0) := by
  obtain ⟨r, hr, hlo, hhi, -, hin⟩ := bitRange?_valid hvalid
  exact ⟨_, setsExactly_setBits ⟨hlo, hhi⟩ hin, exec_of_body_ok hlive (editOption_of_named hd hr)⟩

theorem exec_remo_valid (hlive : s.eng = .ready) (hd : s.namedOption = .ok d) (hvalid : DescriptorIsValid d) :
    ∃ y, ClearsExactly d.byteOffset.toInt d.bitOffset.toInt d.bitSize.toInt s.x y ∧
      exec .remo s = .next ({ s with x := y }.answered .ok 0) := by
  obtain ⟨r, hr, hlo, hhi, -, hin⟩ := bitRange?_valid hvalid
  exact ⟨_, clearsExactly_clearBits ⟨hlo, hhi⟩ hin, exec_of_body_ok hlive (editOption_of_named hd hr)⟩

theorem exec_option_invalidRange (hlive : s.eng = .ready) (hi : i ∈ [Instr.addo, .remo])
    (hd : s.namedOption = .ok d) (hinvalid : ¬ DescriptorIsValid d) :
    exec i s = .next (s.answered .invalidRange 0) := by
  obtain ⟨edit, hbody⟩ := body_addo_or_remo hi s
  exact exec_of_body_error hlive (hbody.trans (editOption_of_invalid hd hinvalid))

theorem exec_option_notFound (hlive : s.eng = .ready) (hi : i ∈ [Instr.addo, .remo])
    (habsent : ∀ d ∈ s.params.catalog, d.name ≠ s.str) : exec i s = .next (s.answered .optionNotFound 0) := by
  obtain ⟨edit, hbody⟩ := body_addo_or_remo hi s
  exact exec_of_body_error hlive (hbody.trans (editOption_of_absent habsent))

end Edits

/-! ### The selected indices -/

section Selection
variable {cat : Catalog} {select : Descriptor → Bool}

/-- The selected indices, where the selection decides `P` on the catalog's entries. -/
theorem mem_selectedNats_of_decides {P : Descriptor → Prop} (h : ∀ d ∈ cat, select d = true ↔ P d) {k : Nat} :
    k ∈ selectedNats cat select ↔ ∃ d, cat[k]? = some d ∧ P d := by
  rw [mem_selectedNats]
  exact exists_congr fun d => and_congr_right fun hd => h d (List.mem_of_getElem? hd)

/-- A selection and its complement split the presentation order, hence the catalog indices (R159). -/
theorem selectedNats_append_perm (cat : Catalog) (select : Descriptor → Bool) :
    (selectedNats cat select ++ selectedNats cat fun d => !select d).Perm (List.range cat.length) := by
  refine List.Perm.trans ?_ (pord_perm cat)
  rw [selectedNats, selectedNats, ← List.map_append]
  exact (List.filter_append_perm _ _).map Prod.snd

theorem indexWords_append (js ks : List Nat) : indexWords (js ++ ks) = indexWords js ++ indexWords ks :=
  List.map_append

theorem selectIndices_append_perm (cat : Catalog) (select : Descriptor → Bool) :
    (selectIndices cat select ++ selectIndices cat fun d => !select d).Perm
      (indexWords (List.range cat.length)) := by
  rw [selectIndices_eq, selectIndices_eq, ← indexWords_append]
  exact (selectedNats_append_perm cat select).map _

theorem selectIndices_sublist (cat : Catalog) (select : Descriptor → Bool) :
    (selectIndices cat select).Sublist (indexWords (pord cat)) := by
  rw [selectIndices_eq]
  exact (selectedNats_sublist cat select).map _

/-- Every catalog index has an `IDX` word of its own (R8, R25). -/
theorem indexWords_range_nodup (hwf : cat.WF) : (indexWords (List.range cat.length)).Nodup :=
  indexWords_nodup hwf (fun _ => List.mem_range.mp) List.nodup_range

end Selection

/-! ### Enumerating the catalog -/

section Enumeration
variable {s : State} {select : Descriptor → Bool} {i : Instr}

theorem enumerate_of_valid (hvalid : ∀ d ∈ s.params.catalog, DescriptorIsValid d) :
    s.enumerate select = .ok ({ s with idx := selectIndices s.params.catalog select }, 0) :=
  if_pos (allValid_iff.mpr hvalid)

theorem enumerate_of_invalid (hbad : ∃ d ∈ s.params.catalog, ¬ DescriptorIsValid d) :
    s.enumerate select = .error .invalidRange := by
  obtain ⟨d, hd, hinvalid⟩ := hbad
  exact if_neg fun hall => hinvalid (allValid_iff.mp hall d hd)

/-- ENOPT and AVOPT differ only in the entries they select (R156, R158). -/
theorem body_enopt_or_avopt (hi : i ∈ [Instr.enopt, .avopt]) (s : State) :
    ∃ select, body i s = s.enumerate select := by
  simp only [List.mem_cons, List.not_mem_nil, or_false] at hi
  obtain rfl | rfl := hi <;> exact ⟨_, rfl⟩

theorem exec_enumeration_invalidRange (hlive : s.eng = .ready) (hi : i ∈ [Instr.enopt, .avopt])
    (hbad : ∃ d ∈ s.params.catalog, ¬ DescriptorIsValid d) : exec i s = .next (s.answered .invalidRange 0) := by
  obtain ⟨select, hbody⟩ := body_enopt_or_avopt hi s
  exact exec_of_body_error hlive (hbody.trans (enumerate_of_invalid hbad))

/-- A command that enumerates the entries with `P` lists exactly their indices, in presentation order. -/
theorem exec_enumeration_lists (hlive : s.eng = .ready) (hvalid : ∀ d ∈ s.params.catalog, DescriptorIsValid d)
    (hbody : body i s = s.enumerate select) {P : Descriptor → Prop}
    (hselect : ∀ d ∈ s.params.catalog, select d = true ↔ P d) : ∃ ks : List Nat,
      exec i s = .next ({ s with idx := indexWords ks }.answered .ok 0) ∧
      ks.Pairwise (PresentedBefore s.params.catalog) ∧
      ∀ k, k ∈ ks ↔ ∃ d, s.params.catalog[k]? = some d ∧ P d := by
  refine ⟨selectedNats s.params.catalog select, ?_, selectedNats_pairwise _ _,
    fun _ => mem_selectedNats_of_decides hselect⟩
  rw [← selectIndices_eq]
  exact exec_of_body_ok hlive (hbody.trans (enumerate_of_valid hvalid))

end Enumeration

/-! ### The statements -/

/-- Settles O33: a name finds its own entry, and the entry's validity decides between the write and
`InvalidRange`. -/
theorem addoSetsTheNamedOption : Obligations.AddoSetsTheNamedOption := by
  refine ⟨decode_packWord .addo 0 0 0, fun s hwf => ⟨fun hlive => ⟨fun d hmem hname => ?_, ?_⟩,
    deadEngineAnswersOnlyTheCatalogStatus _ s⟩⟩
  · have hd : s.namedOption = .ok d := namedOption_of_mem hwf hmem hname
    exact ⟨exec_addo_valid hlive hd, exec_option_invalidRange hlive (by simp) hd⟩
  · exact exec_option_notFound hlive (by simp)

/-- Settles O34: a name finds its own entry, and the entry's validity decides between the write and
`InvalidRange`. -/
theorem remoClearsTheNamedOption : Obligations.RemoClearsTheNamedOption := by
  refine ⟨decode_packWord .remo 0 0 0, fun s hwf => ⟨fun hlive => ⟨fun d hmem hname => ?_, ?_⟩,
    deadEngineAnswersOnlyTheCatalogStatus _ s⟩⟩
  · have hd : s.namedOption = .ok d := namedOption_of_mem hwf hmem hname
    exact ⟨exec_remo_valid hlive hd, exec_option_invalidRange hlive (by simp) hd⟩
  · exact exec_option_notFound hlive (by simp)

/-- Settles O35: on a valid descriptor `enabled` decides `OptionEnabled`. -/
theorem enoptListsTheEnabledOptions : Obligations.EnoptListsTheEnabledOptions := by
  refine ⟨decode_packWord .enopt 0 0 0, fun s => ⟨fun hlive => ⟨fun hvalid => ?_, ?_⟩,
    deadEngineAnswersOnlyTheCatalogStatus _ s⟩⟩
  · exact exec_enumeration_lists hlive hvalid rfl fun d hd => enabled_iff (hvalid d hd)
  · exact exec_enumeration_invalidRange hlive (by simp)

/-- Settles O36: on a valid descriptor the negation of `enabled` decides that the option is not enabled. -/
theorem avoptListsTheOtherOptions : Obligations.AvoptListsTheOtherOptions := by
  refine ⟨decode_packWord .avopt 0 0 0, fun s => ⟨fun hlive => ⟨fun hvalid => ?_, ?_⟩,
    deadEngineAnswersOnlyTheCatalogStatus _ s⟩⟩
  · refine exec_enumeration_lists hlive hvalid rfl fun d hd => ?_
    rw [← enabled_iff (hvalid d hd), Bool.not_eq_true', Bool.not_eq_true]
  · exact exec_enumeration_invalidRange hlive (by simp)

/-- Settles O37: the catalog is validated before any payload bit is looked at. -/
theorem badDescriptorStopsTheEnumeration : Obligations.BadDescriptorStopsTheEnumeration :=
  fun _ d hlive hd hinvalid _ hi => exec_enumeration_invalidRange hlive hi ⟨d, hd, hinvalid⟩

/-- Settles O38: the two selections are complements, and distinct catalog indices have distinct words. -/
theorem enabledAndAvailablePartitionTheCatalog : Obligations.EnabledAndAvailablePartitionTheCatalog := by
  intro s hlive hwf hvalid
  have hperm := selectIndices_append_perm s.params.catalog (enabled s.x)
  have hsub := selectIndices_sublist s.params.catalog
  exact ⟨_, _, exec_of_body_ok (i := .enopt) hlive (enumerate_of_valid hvalid),
    exec_of_body_ok (i := .avopt) hlive (enumerate_of_valid hvalid), hperm,
    hperm.nodup_iff.mpr (indexWords_range_nodup hwf), hsub (enabled s.x), hsub fun d => !enabled s.x d⟩

end Sys2Proof.Proofs

/-! # Scope: the bit display BITS writes -/

namespace Sys2Proof.Proofs

open Sys2Proof.Machine Sys2Proof.Laws

/-! ### The tokens at their offsets -/

section Display
variable {y : Nat → Fin 64} {j : Nat}

theorem codeTokens_digit (y : Nat → Fin 64) : (codeTokens y)[14]? = some (bits8 (checkDigit y)) := by
  simp [codeTokens, groupTokens, List.ofFn_succ]

theorem codeTokens_dash (y : Nat → Fin 64) (hj : j ∈ [6, 13, 15, 22]) :
    (codeTokens y)[j]? = some [Config.dash] := by
  simp only [List.mem_cons, List.not_mem_nil, or_false] at hj
  obtain rfl | rfl | rfl | rfl := hj <;> simp [codeTokens, groupTokens, List.ofFn_succ]

/-- Token `j` of the code string stands in the display from `off(j)` on (R172). -/
theorem getElem?_display {t : List Byte} {k : Nat} (hj : (codeTokens y)[j]? = some t) (hk : k < t.length) :
    (joinTokens (codeTokens y))[tokenOffset j + k]? = t[k]? := by
  have hlt : j < 29 := by
    obtain ⟨hlt, -⟩ := List.getElem?_eq_some_iff.mp hj
    rwa [length_codeTokens] at hlt
  rw [← joinedOffset_codeTokens y hlt]
  exact getElem?_joinTokens hj hk

/-- A token of eight characters shows the bits of its value, bit 0 first (R171). -/
theorem showsBits_display {v : Nat} (hj : (codeTokens y)[j]? = some (bits8 v)) :
    ShowsBits (joinTokens (codeTokens y)) (tokenOffset j) v := by
  intro k hk
  rw [getElem?_display hj (hk.trans_eq (length_bits8 v).symm), getElem?_bits8 v hk]

theorem getElem?_display_space (y : Nat → Fin 64) (h1 : 1 ≤ j) (h28 : j ≤ 28) :
    (joinTokens (codeTokens y))[tokenOffset j - 1]? = some Config.space := by
  rw [← joinedOffset_codeTokens y (Nat.lt_succ_of_le h28)]
  exact getElem?_joinTokens_space h1 (by rw [length_codeTokens]; omega)

/-- The 29 joined tokens of a code string are its bit display (R170 to R172). -/
theorem isBitDisplay_joinTokens (y : Nat → Fin 64) : IsBitDisplay y (joinTokens (codeTokens y)) where
  length := length_display y
  data _ hj := showsBits_display (codeTokens_data y hj)
  digit := showsBits_display (codeTokens_digit y)
  dashes _ hj := getElem?_display (codeTokens_dash y hj) (k := 0) Nat.one_pos
  spaces _ := getElem?_display_space y

end Display

/-! ### The command on a live engine -/

section Command
variable {s : State}

/-- BITS displays the code string ENC would write (R170), whose every character has a token. -/
theorem exec_bits_of_holdsValues {y : Nat → Fin 64} (hwf : s.params.alphabet.WF) (hlive : s.eng = .ready)
    (hx : HoldsValues s.x y) :
    exec .bits s = .next ({ s with str := joinTokens (codeTokens y) }.answered .ok 0) := by
  have hin : InAlphabet s.x := inAlphabet_of_holdsValues hx
  have htokens : displayTokens s.params.alphabet (encodeString s.params.alphabet s.x hin) = some (codeTokens y) := by
    rw [encodeString_eq_fullCode hwf hx, displayTokens_fullCode hwf]
  have hbody : body .bits s = .ok ({ s with str := joinTokens (codeTokens y) }, 0) := by
    simp only [body, dif_pos hin, htokens]
  exact exec_of_body_ok hlive hbody

theorem exec_bits_outOfAlphabet (hlive : s.eng = .ready) (hx : OutOfAlphabet s.x) :
    exec .bits s = .next (s.answered .notFound 0) :=
  exec_of_body_error hlive (body_notFound (by simp) (not_inAlphabet_iff.mpr hx))

end Command

/-! ### The statement -/

/-- Settles O39: the alphabet check of R170 decides between the display of the code string and `NotFound`. -/
theorem bitsWritesTheDisplay : Obligations.BitsWritesTheDisplay := by
  refine ⟨decode_packWord .bits 0 0 0, fun s hwf => ⟨fun hlive => ⟨fun y hx => ?_, ?_⟩,
    deadEngineAnswersOnlyTheCatalogStatus _ s⟩⟩
  · exact ⟨joinTokens (codeTokens y), isBitDisplay_joinTokens y, exec_bits_of_holdsValues hwf hlive hx⟩
  · exact exec_bits_outOfAlphabet hlive

end Sys2Proof.Proofs

/-! # Scope: which error a command reports, and what a failing command leaves -/

namespace Sys2Proof.Proofs

open Sys2Proof.Machine Sys2Proof.Laws

/-! ### The order of the checks -/

/-- Settles O41: the decoder, the engine check and the option lookup come one after the other, each before
anything later is looked at (R184). -/
theorem theFirstErrorIsReported : Obligations.TheFirstErrorIsReported := by
  intro s w rest hinput
  refine ⟨step_illegal hinput, fun i hdecode => ?_⟩
  rw [stepRunsTheDecodedCommand s w rest i hinput hdecode]
  obtain ⟨hunavailable, hmalformed⟩ := deadEngineAnswersOnlyTheCatalogStatus i { s with input := rest }
  refine ⟨hunavailable, hmalformed, fun hlive hi => ?_⟩
  have hserved : State.eng { s with input := rest } = .ready := hlive
  have hmem : i ∈ [Instr.addo, .remo] := by simpa using hi
  refine ⟨exec_option_notFound hserved hmem, fun hwf d hd hname hinvalid => ?_⟩
  exact exec_option_invalidRange hserved hmem (namedOption_of_mem hwf hd hname) hinvalid

/-! ### The statuses of a command's own rule -/

section Errors
variable {s : State} {e : Status}

theorem editRange_error {range : Option BitRange} {edit : Payload → BitRange → Payload}
    (h : s.editRange range edit = .error e) : e = .invalidRange := by
  obtain ⟨-, he⟩ | ⟨r, -, he⟩ := editRange_cases s range edit <;> cases he.symm.trans h
  rfl

theorem editOption_error {edit : Payload → BitRange → Payload} (h : s.editOption edit = .error e) :
    e = .optionNotFound ∨ e = .invalidRange := by
  obtain ⟨-, he⟩ | ⟨d, -, -, he⟩ | ⟨d, r, -, -, he⟩ := editOption_cases s edit <;> cases he.symm.trans h
  · exact .inl rfl
  · exact .inr rfl

theorem enumerate_error {select : Descriptor → Bool} (h : s.enumerate select = .error e) :
    e = .invalidRange := by
  obtain ⟨-, he⟩ | ⟨-, he⟩ := enumerate_cases s select <;> cases he.symm.trans h
  rfl

/-- A rule fails only with a status that R180 lists for its command. -/
theorem body_error_mem_ownStatuses {i : Instr} (h : body i s = .error e) : e ∈ ownStatuses i := by
  cases i with
  | clr => cases h
  | valof | chrof | dec | enc | csum | chkb =>
    simp only [body] at h
    split at h <;> cases h
    exact List.mem_singleton_self _
  | bits =>
    simp only [body] at h
    split at h
    next =>
      split at h <;> cases h
      exact List.mem_singleton_self _
    next =>
      cases h
      exact List.mem_singleton_self _
  | setb | clrb => exact List.mem_singleton.mpr (editRange_error h)
  | addo | remo => exact List.mem_pair.mpr (editOption_error h)
  | enopt | avopt => exact List.mem_singleton.mpr (enumerate_error h)

end Errors

/-! ### The response a command delivers -/

section Delivered
variable {s s' t : State} {i : Instr} {st : Status} {v : Byte} {r : Response}

theorem eq_of_answered_responses (hkept : s'.responses = s.responses)
    (h : (s'.answered st v).responses = s.responses ++ [r]) : r = ⟨st, v⟩ := by
  rw [answered_responses, hkept] at h
  exact (List.singleton_inj.mp (List.append_cancel_left h)).symm

/-- A command whose response is not OK has delivered it with value 0 and written nothing (R185). -/
theorem exec_failing (hexec : exec i s = .next t) (hr : t.responses = s.responses ++ [r])
    (hfail : r.status ≠ .ok) : t = s.answered r.status 0 := by
  obtain ⟨e, -, he⟩ | ⟨s', v, -, -, he, -, -, -, hkept⟩ := exec_cases i s <;> cases he.symm.trans hexec
  · rw [eq_of_answered_responses rfl hr]
  · rw [eq_of_answered_responses hkept hr] at hfail
    exact absurd rfl hfail

/-- A command of a live engine succeeds, or fails with a status of its own (R180). -/
theorem exec_ready_status (hlive : s.eng = .ready) (hexec : exec i s = .next t)
    (hr : t.responses = s.responses ++ [r]) : r.status = .ok ∨ r.status ∈ ownStatuses i := by
  obtain ⟨e, -, hbody⟩ | ⟨s', v, hbody, -, -, -, hkept⟩ := body_cases i s
  · cases (exec_of_body_error hlive hbody).symm.trans hexec
    rw [eq_of_answered_responses rfl hr]
    exact .inr (body_error_mem_ownStatuses hbody)
  · cases (exec_of_body_ok hlive hbody).symm.trans hexec
    rw [eq_of_answered_responses hkept hr]
    exact .inl rfl

end Delivered

/-- Settles O42: one case for each engine state; only a live engine runs the command's own rule. -/
theorem eachStatusComesFromItsCommands : Obligations.EachStatusComesFromItsCommands := by
  intro i s t r hexec hr
  obtain ⟨hunavailable, hmalformed⟩ := deadEngineAnswersOnlyTheCatalogStatus i s
  cases heng : s.eng with
  | ready => exact .inl ⟨rfl, exec_ready_status heng hexec hr⟩
  | deadUnavailable =>
    cases (hunavailable heng).symm.trans hexec
    rw [eq_of_answered_responses rfl hr]
    exact .inr (.inl ⟨rfl, rfl⟩)
  | deadMalformed =>
    cases (hmalformed heng).symm.trans hexec
    rw [eq_of_answered_responses rfl hr]
    exact .inr (.inr ⟨rfl, rfl⟩)

/-- Settles O44: a word that does not decode is answered by the step itself, a word that does by its
command. -/
theorem failingCommandsWriteNothing : Obligations.FailingCommandsWriteNothing := by
  intro s t w rest r hinput hstep hr hfail
  cases hdecode : decode w with
  | error e =>
    have hnone : ¬ ∃ i, decode w = .ok i := by simp [hdecode]
    cases (step_illegal hinput hnone).symm.trans hstep
    rw [eq_of_answered_responses (s := s) rfl hr]
  | ok i =>
    rw [stepRunsTheDecodedCommand s w rest i hinput hdecode] at hstep
    exact exec_failing hstep hr hfail

end Sys2Proof.Proofs

/-! # Scope: reset, and construct-from-string -/

namespace Sys2Proof.Proofs

open Sys2Proof.Machine Sys2Proof.Laws

/-! ### Reset -/

section Reset
variable {s : State} {rest : List Line}

theorem step_reset (hs : s.input = .reset :: rest) :
    step s = .next (State.applyReset { s with input := rest }) := by
  simp only [step, hs]

/-- Reset zeroes every payload register (R210). -/
theorem applyReset_x_getElem (s : State) (i : Fin 24) : s.applyReset.x[i] = 0 :=
  Vector.getElem_replicate i.isLt

theorem applyReset_eng_of_catLoad {load : CatLoad} (h : s.params.catLoad = load) :
    s.applyReset.eng = Eng.ofLoad load := by
  rw [applyReset_eng, h]

end Reset

/-- Settles O7: the step is `State.applyReset`, whose registers have the values of R210. -/
theorem resetGivesEveryResetValue : Obligations.ResetGivesEveryResetValue := by
  intro s rest hs
  exact ⟨_, step_reset hs, applyReset_x_getElem _, applyReset_eng_of_catLoad, applyReset_eng_of_catLoad,
    applyReset_eng_of_catLoad, rfl, rfl, rfl, rfl, rfl, rfl, rfl⟩

/-! ### Construct-from-string -/

/-- Where the block stands when DEC of construct-from-string begins: reset, with the text in `STR` (R211). -/
def resetWithStr (s : State) (text : List Byte) (rest : List Line) : State :=
  { State.applyReset { s with input := rest } with str := text }

section NewFrom
variable {s t : State} {text : List Byte} {rest : List Line}

theorem resetWithStr_x_getElem (s : State) (text : List Byte) (rest : List Line) (i : Fin 24) :
    (resetWithStr s text rest).x[i] = 0 :=
  applyReset_x_getElem { s with input := rest } i

theorem resetWithStr_eng {load : CatLoad} (h : s.params.catLoad = load) :
    (resetWithStr s text rest).eng = Eng.ofLoad load :=
  applyReset_eng_of_catLoad (s := { s with input := rest }) h

/-- Construct-from-string ends where DEC ends, begun after reset with the text in `STR` (R211). -/
theorem runsTo_newFrom (hfits : text.length ≤ 232) (hinput : s.input = newFrom text ++ rest)
    (hexec : exec .dec (resetWithStr s text rest) = .next t) : RunsTo 3 s t := by
  have hdec : decode (encode .dec) = .ok .dec := decodeOfEncodeGivesTheCommandBack .dec rfl
  refine runsTo_succ (step_reset hinput) ?_
  refine runsTo_succ ((strMoveWritesTheString _ text _ rfl).1 hfits) ?_
  exact runsTo_succ ((stepRunsTheDecodedCommand _ _ rest .dec rfl hdec).trans hexec) (runsTo_zero.mpr rfl)

/-- DEC writes neither of the two lists. -/
theorem exec_dec_str_idx (hexec : exec .dec s = .next t) : t.str = s.str ∧ t.idx = s.idx := by
  obtain ⟨-, -, -, -, hstr, hidx⟩ := commandsWriteOnlyTheirOwnState .dec s t hexec
  exact ⟨by simpa using hstr, by simpa using hidx⟩

end NewFrom

/-- Settles O47: the run ends where DEC ends, so each clause is the one outcome of DEC that its premise
selects. -/
theorem newConstructsFromTheString : Obligations.NewConstructsFromTheString := by
  intro s text rest hwf hfits hinput
  obtain ⟨t, -, -, hexec, -⟩ := everyCommandDeliversOneResponse .dec (resetWithStr s text rest)
  obtain ⟨heng, hparams, hrest, -⟩ := commandsWriteOnlyTheirOwnState .dec _ t hexec
  obtain ⟨hstr, hidx⟩ := exec_dec_str_idx hexec
  obtain ⟨hunavailable, hmalformed⟩ :=
    deadEngineAnswersOnlyTheCatalogStatus .dec (resetWithStr s text rest)
  refine ⟨t, runsTo_newFrom hfits hinput hexec, hrest, hstr, hidx, hparams, fun hload => ?_,
    fun hload => ?_, fun hload => ?_⟩
  · have hlive : (resetWithStr s text rest).eng = .ready := resetWithStr_eng hload
    refine ⟨heng.trans hlive, fun y c hc htext => ?_, fun y c hc htext => ?_, fun hfull hlegacy => ?_⟩
    · cases (exec_dec_fullCode (s := resetWithStr s text rest) hwf hlive hc htext).symm.trans hexec
      exact ⟨rfl, rfl⟩
    · cases (exec_dec_legacyCode (s := resetWithStr s text rest) hwf hlive hc htext).symm.trans hexec
      exact ⟨rfl, rfl⟩
    · cases (exec_dec_invalid hlive hfull hlegacy).symm.trans hexec
      exact ⟨resetWithStr_x_getElem s text rest, rfl⟩
  · cases (hunavailable (resetWithStr_eng hload)).symm.trans hexec
    exact ⟨resetWithStr_x_getElem s text rest, rfl⟩
  · cases (hmalformed (resetWithStr_eng hload)).symm.trans hexec
    exact ⟨resetWithStr_x_getElem s text rest, rfl⟩

end Sys2Proof.Proofs
